-- ==== Sys2Proof/Word.lean ====
section
/-! DEFINITION. The widths of the block: command words, bytes, operand fields, bus addresses. -/

namespace Sys2Proof

/-- A 64-bit command word (30_encoding.md R90). -/
abbrev Word := BitVec 64

/-- One byte: a register's contents, a register address, an opcode (00_scope.md R10, R9). -/
abbrev Byte := BitVec 8

/-- One 16-bit operand field A, B or C of a command word (30_encoding.md R90). -/
abbrev Field := BitVec 16

/-- A 7-bit bus device address (10_state.md R24). -/
abbrev DevAddr := BitVec 7

end Sys2Proof
end

