-- ==== Sys2Proof/Config.lean ====
section
/-! DEFINITION. What an implementation fixes (00_scope.md R8), the types of a bus transaction, and the ONE free value of
the model: the answer of the bus oracle (20_memory.md R61). -/

namespace Sys2Proof

/-- The four device modes (10_state.md R25). -/
inductive DeviceMode where
  | normal | sleep | standBy60 | standBy10
  deriving DecidableEq, Repr

/-- The two frame rates (10_state.md R26). -/
inductive FpsMode where
  | fps10 | fps1
  deriving DecidableEq, Repr

/-- The two interrupt modes (20_memory.md R71). -/
inductive InterruptMode where
  | difference | absolute
  deriving DecidableEq, Repr

/-- The parameter MODE_CODE: the byte written to the mode register for each mode (00_scope.md R8). -/
structure ModeCodes where
  normal : Byte
  sleep : Byte
  standBy60 : Byte
  standBy10 : Byte
  deriving DecidableEq, Repr

/-- MODE_CODE(m). -/
def ModeCodes.code (c : ModeCodes) : DeviceMode → Byte
  | .normal => c.normal
  | .sleep => c.sleep
  | .standBy60 => c.standBy60
  | .standBy10 => c.standBy10

/-- The only law of MODE_CODE: "four modes to four distinct bytes" (00_scope.md R8). -/
def ModeCodes.Injective (c : ModeCodes) : Prop :=
  ∀ m n : DeviceMode, c.code m = c.code n → m = n

/-- The two kinds of bus transaction (20_memory.md R52). -/
inductive TransferKind where
  | read | write
  deriving DecidableEq, Repr

/-- A transaction as the block issues it: device address, register address and, for a write, the byte (R52). -/
inductive BusRequest where
  | read (dev : DevAddr) (addr : Byte)
  | write (dev : DevAddr) (addr : Byte) (data : Byte)
  deriving DecidableEq, Repr

/-- What the transport reports: a fault (or NACK), or success with a byte. A write uses the success only
(20_memory.md R59, R61). DESIGN CHOICE, safe: one answer type for both kinds (log 5). -/
inductive BusAnswer where
  | fault
  | ok (b : Byte)
  deriving DecidableEq, Repr, Inhabited

/-- A transaction that has been issued, with its outcome (R59). -/
inductive BusEvent where
  | readOk (dev : DevAddr) (addr : Byte) (data : Byte)
  | readFault (dev : DevAddr) (addr : Byte)
  | writeOk (dev : DevAddr) (addr : Byte) (data : Byte)
  | writeFault (dev : DevAddr) (addr : Byte) (data : Byte)
  deriving DecidableEq, Repr

/-- THE FREE VALUE: the answer the unconstrained oracle gives to a transaction, which "may depend on the whole history of
transactions" (20_memory.md R61). No body: no claim can rest on a value of it (log 4). -/
opaque Config.freeAnswer : List BusEvent → BusRequest → BusAnswer

/-- DEVICE_ADDR, default 0x69 (00_scope.md R8). -/
def Config.deviceAddr : DevAddr := 0x69

/-- PIXEL_BASE: the address of pixel 0's low byte (00_scope.md R8). -/
def Config.pixelBase : Byte := 0x80

/-- The default MODE_CODE of 00_scope.md R8 (D10: from general knowledge of the family, not from the source; log 8). -/
def Config.defaultModeCodes : ModeCodes :=
  { normal := 0x00, sleep := 0x10, standBy60 := 0x20, standBy10 := 0x21 }

/-- FPS_CODE (00_scope.md R8, D11). -/
def Config.fpsCode : FpsMode → Byte
  | .fps10 => 0x00
  | .fps1 => 0x01

/-- INTMODE_CODE (00_scope.md R8, D12). -/
def Config.intModeCode : InterruptMode → Byte
  | .difference => 0
  | .absolute => 1

end Sys2Proof
end

