-- ==== Sys2Proof/Syntax.lean ====
section
/-! DEFINITION. A command word cut into its fields (30_encoding.md R90), and the twenty commands (R95). -/

namespace Sys2Proof

/-- The raw fields of one command word (30_encoding.md R90). Any 64-bit word is one; R96 says which are well-formed. -/
structure Command where
  op : Byte
  a : Field
  b : Field
  c : Field
  z : Byte
  deriving DecidableEq, Repr

/-- The twenty commands, one constructor per row of spec/opcode_table.json, with the operands as the decoder hands them
over (30_encoding.md R92): a byte operand is a byte and a bool operand a Bool (their other bits are checked to be 0), an idx
or code operand is the full 16-bit field, and a centi operand is the 16-bit field read as signed. -/
inductive Instr where
  /-- `decode_pixel lsb, msb` (40_codec.md R121) -/
  | decodePixel (lsb msb : Byte)
  /-- `decode_thermistor lsb, msb` (R123) -/
  | decodeThermistor (lsb msb : Byte)
  /-- `encode_threshold t` (R126) -/
  | encodeThreshold (t : Field)
  /-- `pixel_register_pair row, col` (R129) -/
  | pixelRegisterPair (row col : Field)
  /-- `set_mode mode` (41_control.md R152) -/
  | setMode (mode : Field)
  /-- `get_status` (R153) -/
  | getStatus
  /-- `clear_flags interrupt, pixel_overflow, thermistor_overflow` (R154) -/
  | clearFlags (interrupt pixelOverflow thermistorOverflow : Bool)
  /-- `reset_flags` (R155) -/
  | resetFlags
  /-- `reset_flags_and_settings` (R156) -/
  | resetFlagsAndSettings
  /-- `enable_interrupt enabled, mode` (R157) -/
  | enableInterrupt (enabled : Bool) (mode : Field)
  /-- `set_interrupt_thresholds low, high, hysteresis` (R158) -/
  | setInterruptThresholds (low high hysteresis : Field)
  /-- `set_fps_mode mode` (R160) -/
  | setFpsMode (mode : Field)
  /-- `get_fps` (R161) -/
  | getFps
  /-- `update_interrupt_table` (42_update.md R190) -/
  | updateInterruptTable
  /-- `update_pixel_temperature_matrix` (R191) -/
  | updatePixelTemperatureMatrix
  /-- `update_thermistor_temperature` (R192) -/
  | updateThermistorTemperature
  /-- `get_pixel_temperature_matrix` (43_accessors.md R211) -/
  | getPixelTemperatureMatrix
  /-- `get_pixel_temperature x, y` (R212) -/
  | getPixelTemperature (x y : Field)
  /-- `get_thermistor_temperature` (R213) -/
  | getThermistorTemperature
  /-- `get_interrupt_table` (R214) -/
  | getInterruptTable
  deriving DecidableEq, Repr

end Sys2Proof
end

