-- ==== Sys2Proof/WellFormed.lean ====
section
/-! DEFINITION. When a command word is well-formed (30_encoding.md R92, R95, R96, R97), every reason against it by name.
An `Instr` has no ill-formed values: its operand types hold exactly the values R92 lets through, so the check stands on the raw
fields of the word. -/

namespace Sys2Proof

/-- The operand kinds of 30_encoding.md R92, and the unused field "-" of R95. -/
inductive OperandKind where
  | byte | bool | idx | code | centi | unused
  deriving DecidableEq, Repr

/-- The three operand slots of a command word (R90). -/
inductive Slot where
  | a | b | c
  deriving DecidableEq, Repr

/-- Why a word is no command (30_encoding.md R96, R97; 60_exceptions.md R234). All of them give the one status IllegalCommand. -/
inductive Illegal where
  | reservedOpcode
  | reservedZ
  | unusedField (slot : Slot)
  | wideByte (slot : Slot)
  | wideBool (slot : Slot)
  deriving DecidableEq, Repr

/-- The operand kinds of one opcode. -/
structure Format where
  a : OperandKind
  b : OperandKind
  c : OperandKind
  deriving DecidableEq, Repr

/-- The columns A, B, C of the opcode map (30_encoding.md R95); `none` for the 236 reserved opcodes (R97). -/
def formatOf (op : Byte) : Option Format :=
  match op with
  | 0x01#8 => some ⟨.byte, .byte, .unused⟩
  | 0x02#8 => some ⟨.byte, .byte, .unused⟩
  | 0x03#8 => some ⟨.centi, .unused, .unused⟩
  | 0x04#8 => some ⟨.idx, .idx, .unused⟩
  | 0x10#8 => some ⟨.code, .unused, .unused⟩
  | 0x11#8 => some ⟨.unused, .unused, .unused⟩
  | 0x12#8 => some ⟨.bool, .bool, .bool⟩
  | 0x13#8 => some ⟨.unused, .unused, .unused⟩
  | 0x14#8 => some ⟨.unused, .unused, .unused⟩
  | 0x15#8 => some ⟨.bool, .code, .unused⟩
  | 0x16#8 => some ⟨.centi, .centi, .centi⟩
  | 0x17#8 => some ⟨.code, .unused, .unused⟩
  | 0x18#8 => some ⟨.unused, .unused, .unused⟩
  | 0x20#8 => some ⟨.unused, .unused, .unused⟩
  | 0x21#8 => some ⟨.unused, .unused, .unused⟩
  | 0x22#8 => some ⟨.unused, .unused, .unused⟩
  | 0x30#8 => some ⟨.unused, .unused, .unused⟩
  | 0x31#8 => some ⟨.idx, .idx, .unused⟩
  | 0x32#8 => some ⟨.unused, .unused, .unused⟩
  | 0x33#8 => some ⟨.unused, .unused, .unused⟩
  | _ => none

/-- The "well-formed when" column of 30_encoding.md R92, and R95's "must be 0" for an unused field. -/
def fieldIllegal? (slot : Slot) (kind : OperandKind) (f : Field) : Option Illegal :=
  match kind with
  | .byte => if f.extractLsb' 8 8 = 0#8 then none else some (.wideByte slot)
  | .bool => if f.extractLsb' 1 15 = 0#15 then none else some (.wideBool slot)
  | .idx => none
  | .code => none
  | .centi => none
  | .unused => if f = 0#16 then none else some (.unusedField slot)

/-- The first check of 30_encoding.md R96 that the fields fail, if any (which one is first is not observable: log 13). -/
def Command.illegal? (c : Command) : Option Illegal :=
  match formatOf c.op with
  | none => some .reservedOpcode
  | some f =>
    if c.z = 0#8 then
      match fieldIllegal? .a f.a c.a with
      | some e => some e
      | none =>
        match fieldIllegal? .b f.b c.b with
        | some e => some e
        | none => fieldIllegal? .c f.c c.c
    else some .reservedZ

/-- 30_encoding.md R96: the fields spell a command. -/
def Command.wellFormed (c : Command) : Bool :=
  c.illegal?.isNone

end Sys2Proof
end

