-- ==== Sys2Proof/Decode.lean ====
section
/-! DEFINITION. The decoder, total on all 64-bit words and rejecting by name (30_encoding.md R90, R91, R96, R98); the encoder,
written from the same tables; and the match/mask table that R96 says is equivalent. -/

namespace Sys2Proof

/-- The fields of a word: "`OP = word[63:56]`, `A = word[55:40]`, `B = word[39:24]`, `C = word[23:8]`, `Z = word[7:0]`"
(30_encoding.md R91). -/
def Command.ofWord (w : Word) : Command :=
  { op := w.extractLsb' 56 8
    a := w.extractLsb' 40 16
    b := w.extractLsb' 24 16
    c := w.extractLsb' 8 16
    z := w.extractLsb' 0 8 }

/-- The word of raw fields (30_encoding.md R91, with Z kept). -/
def Command.toWord (c : Command) : Word :=
  (c.op.setWidth 64 <<< 56) ||| (c.a.setWidth 64 <<< 40) ||| (c.b.setWidth 64 <<< 24)
    ||| (c.c.setWidth 64 <<< 8) ||| c.z.setWidth 64

/-- The byte operand `F[7:0]` (30_encoding.md R92). -/
def byteOperand (f : Field) : Byte := f.extractLsb' 0 8

/-- The bool operand `F[0]` (R92). -/
def boolOperand (f : Field) : Bool := f.getLsbD 0

/-- The command that well-formed fields spell (30_encoding.md R95). -/
def Command.instr (c : Command) : Except Illegal Instr :=
  match c.op with
  | 0x01#8 => .ok (.decodePixel (byteOperand c.a) (byteOperand c.b))
  | 0x02#8 => .ok (.decodeThermistor (byteOperand c.a) (byteOperand c.b))
  | 0x03#8 => .ok (.encodeThreshold c.a)
  | 0x04#8 => .ok (.pixelRegisterPair c.a c.b)
  | 0x10#8 => .ok (.setMode c.a)
  | 0x11#8 => .ok .getStatus
  | 0x12#8 => .ok (.clearFlags (boolOperand c.a) (boolOperand c.b) (boolOperand c.c))
  | 0x13#8 => .ok .resetFlags
  | 0x14#8 => .ok .resetFlagsAndSettings
  | 0x15#8 => .ok (.enableInterrupt (boolOperand c.a) c.b)
  | 0x16#8 => .ok (.setInterruptThresholds c.a c.b c.c)
  | 0x17#8 => .ok (.setFpsMode c.a)
  | 0x18#8 => .ok .getFps
  | 0x20#8 => .ok .updateInterruptTable
  | 0x21#8 => .ok .updatePixelTemperatureMatrix
  | 0x22#8 => .ok .updateThermistorTemperature
  | 0x30#8 => .ok .getPixelTemperatureMatrix
  | 0x31#8 => .ok (.getPixelTemperature c.a c.b)
  | 0x32#8 => .ok .getThermistorTemperature
  | 0x33#8 => .ok .getInterruptTable
  | _ => .error .reservedOpcode

/-- The decoder: "every command word is 64 bits and is decoded by rule R91 alone, in every device mode and every block state"
(30_encoding.md R98); a word that R96 does not pass is refused with its reason. -/
def decode (w : Word) : Except Illegal Instr :=
  match (Command.ofWord w).illegal? with
  | some e => .error e
  | none => (Command.ofWord w).instr

/-- A byte as a byte field (R92: the upper half is 0). -/
def byteField (b : Byte) : Field := b.setWidth 16

/-- A Bool as a bool field (R92: bits 15..1 are 0). -/
def boolField (b : Bool) : Field := if b then 1#16 else 0#16

/-- The fields of a command's word: opcode and operands of 30_encoding.md R95, everything else 0. -/
def Instr.command : Instr → Command
  | .decodePixel lsb msb => ⟨0x01#8, byteField lsb, byteField msb, 0#16, 0#8⟩
  | .decodeThermistor lsb msb => ⟨0x02#8, byteField lsb, byteField msb, 0#16, 0#8⟩
  | .encodeThreshold t => ⟨0x03#8, t, 0#16, 0#16, 0#8⟩
  | .pixelRegisterPair row col => ⟨0x04#8, row, col, 0#16, 0#8⟩
  | .setMode mode => ⟨0x10#8, mode, 0#16, 0#16, 0#8⟩
  | .getStatus => ⟨0x11#8, 0#16, 0#16, 0#16, 0#8⟩
  | .clearFlags i p t => ⟨0x12#8, boolField i, boolField p, boolField t, 0#8⟩
  | .resetFlags => ⟨0x13#8, 0#16, 0#16, 0#16, 0#8⟩
  | .resetFlagsAndSettings => ⟨0x14#8, 0#16, 0#16, 0#16, 0#8⟩
  | .enableInterrupt e mode => ⟨0x15#8, boolField e, mode, 0#16, 0#8⟩
  | .setInterruptThresholds low high hyst => ⟨0x16#8, low, high, hyst, 0#8⟩
  | .setFpsMode mode => ⟨0x17#8, mode, 0#16, 0#16, 0#8⟩
  | .getFps => ⟨0x18#8, 0#16, 0#16, 0#16, 0#8⟩
  | .updateInterruptTable => ⟨0x20#8, 0#16, 0#16, 0#16, 0#8⟩
  | .updatePixelTemperatureMatrix => ⟨0x21#8, 0#16, 0#16, 0#16, 0#8⟩
  | .updateThermistorTemperature => ⟨0x22#8, 0#16, 0#16, 0#16, 0#8⟩
  | .getPixelTemperatureMatrix => ⟨0x30#8, 0#16, 0#16, 0#16, 0#8⟩
  | .getPixelTemperature x y => ⟨0x31#8, x, y, 0#16, 0#8⟩
  | .getThermistorTemperature => ⟨0x32#8, 0#16, 0#16, 0#16, 0#8⟩
  | .getInterruptTable => ⟨0x33#8, 0#16, 0#16, 0#16, 0#8⟩

/-- The encoder: "`word = (OP << 56) | (zext_64(A) << 40) | (zext_64(B) << 24) | (zext_64(C) << 8)`" (30_encoding.md R91). -/
def encode (i : Instr) : Word := i.command.toWord

/-- The decoder on a table word: `w` is the word, its bits numbered as spec/opcode_table.json numbers them, and the bits from
`nbits` on are 0. A command word is 64 bits wide and comes whole through the command port, so no bytes are laid out. -/
def decodeTableWord (nbits w : Nat) : Option Instr :=
  match decode (BitVec.ofNat 64 (w % 2 ^ nbits)) with
  | .ok i => some i
  | .error _ => none

/-- One row of spec/opcode_table.json. -/
structure TableRow where
  mask : Word
  pattern : Word
  deriving DecidableEq, Repr

/-- The word has the row's fixed bits: `(word & mask) = match` (30_encoding.md R96). -/
def TableRow.covers (r : TableRow) (w : Word) : Bool := w &&& r.mask == r.pattern

/-- The masks and matches of spec/opcode_table.json, in its order. The decoder does not use them: R96 says they agree with
it, and a statement of this model says the same. -/
def opcodeTable : List TableRow :=
  [ ⟨0xFFFF00FF00FFFFFF#64, 0x0100000000000000#64⟩
  , ⟨0xFFFF00FF00FFFFFF#64, 0x0200000000000000#64⟩
  , ⟨0xFF0000FFFFFFFFFF#64, 0x0300000000000000#64⟩
  , ⟨0xFF00000000FFFFFF#64, 0x0400000000000000#64⟩ ]
  ++
  [ ⟨0xFF0000FFFFFFFFFF#64, 0x1000000000000000#64⟩
  , ⟨0xFFFFFFFFFFFFFFFF#64, 0x1100000000000000#64⟩
  , ⟨0xFFFFFEFFFEFFFEFF#64, 0x1200000000000000#64⟩
  , ⟨0xFFFFFFFFFFFFFFFF#64, 0x1300000000000000#64⟩
  , ⟨0xFFFFFFFFFFFFFFFF#64, 0x1400000000000000#64⟩
  , ⟨0xFFFFFE0000FFFFFF#64, 0x1500000000000000#64⟩
  , ⟨0xFF000000000000FF#64, 0x1600000000000000#64⟩
  , ⟨0xFF0000FFFFFFFFFF#64, 0x1700000000000000#64⟩
  , ⟨0xFFFFFFFFFFFFFFFF#64, 0x1800000000000000#64⟩ ]
  ++
  [ ⟨0xFFFFFFFFFFFFFFFF#64, 0x2000000000000000#64⟩
  , ⟨0xFFFFFFFFFFFFFFFF#64, 0x2100000000000000#64⟩
  , ⟨0xFFFFFFFFFFFFFFFF#64, 0x2200000000000000#64⟩
  , ⟨0xFFFFFFFFFFFFFFFF#64, 0x3000000000000000#64⟩
  , ⟨0xFF00000000FFFFFF#64, 0x3100000000000000#64⟩
  , ⟨0xFFFFFFFFFFFFFFFF#64, 0x3200000000000000#64⟩
  , ⟨0xFFFFFFFFFFFFFFFF#64, 0x3300000000000000#64⟩ ]

end Sys2Proof
end

