-- ==== Sys2Proof/Machine/State.lean ====
section
/-! DEFINITION. The block's state (10_state.md R23), its value domains (00_scope.md R14), its responses (30_encoding.md R101,
R102; 60_exceptions.md R230), the inputs of a run held as plain data, and the state after reset (70_reset_and_hazards.md R260). -/

namespace Sys2Proof.Machine

/- A pixel reading (PixelValue of 00_scope.md R14) is "an integer q with -2048 <= q <= 2047 whose temperature is q/4 °C": an
Int here, with the bounds as `PixelInRange` (Safety.lean), which every command keeps (log 12). -/

/-- A thermistor reading: the triple (neg, ip, fn) of 00_scope.md R14. -/
structure ThermValue where
  neg : Bool
  ip : BitVec 7
  fn : BitVec 4
  deriving DecidableEq, Repr

/-- S.mode: Unknown, or the mode of the last successful SET_MODE (10_state.md R25). -/
inductive CachedMode where
  | unknown
  | known (m : DeviceMode)
  deriving DecidableEq, Repr

/-- S.fps: Unknown, or the frame rate of the last successful SET_FPS (10_state.md R26). -/
inductive CachedFps where
  | unknown
  | known (f : FpsMode)
  deriving DecidableEq, Repr

/-- S.busy (10_state.md R30). -/
inductive Busy where
  | idle | busy
  deriving DecidableEq, Repr

/-- The eight-valued status of a response, code 7 never produced (60_exceptions.md R230). -/
inductive Status where
  | ok
  | invalidArgument
  | indexOutOfRange
  | busError
  | illegalCommand
  | deviceAsleep
  | notYetRead
  deriving DecidableEq, Repr

/-- The payload kinds of 30_encoding.md R102. -/
inductive Payload where
  | none
  | pixel (q : Int)
  | therm (v : ThermValue)
  | bytes2 (b0 b1 : Byte)
  | addr2 (lsb msb : Byte)
  | status3 (thermistorOverflow pixelOverflow interruptFired : Bool)
  | fps (rate : Nat)
  | matrix (cells : Vector Int 64)
  | table (cells : Vector Bool 64)
  | buserr (addr : Byte) (kind : TransferKind)
  deriving DecidableEq, Repr

/-- A response (status, payload) (30_encoding.md R101). -/
structure Response where
  status : Status
  payload : Payload
  deriving DecidableEq, Repr

/-- The errors a command can raise (60_exceptions.md R230 to R236); BusError names the failed transaction. -/
inductive Error where
  | invalidArgument
  | indexOutOfRange
  | busError (addr : Byte) (kind : TransferKind)
  | illegalCommand
  | deviceAsleep
  | notYetRead
  deriving DecidableEq, Repr

/-- Bytes by address, in ONE canonical form: addresses strictly rising, and no byte equal to 0, which is what an unlisted
address reads as (Memory.lean; log 7). The block has no memory of its own: this is RD's array D. -/
abbrev Memory := List Host.Cell

/-- The reference device RD of 20_memory.md R78: its byte array D, how many transactions it has had, and the ordinal numbers
(counted from 1) of those that fail. -/
structure RefDevice where
  bytes : Memory
  served : Nat
  failing : List Nat
  deriving DecidableEq, Repr

/-- How the bus answers (20_memory.md R61), as plain data. `unconstrained foretold`: the answers of the next transactions in
turn, and after them the free value `Config.freeAnswer` of the whole history. `reference`: the device RD of R78. Every
statement that holds for every state holds for every oracle (log 4). -/
inductive BusOracle where
  | unconstrained (foretold : List BusAnswer)
  | reference (rd : RefDevice)
  deriving DecidableEq, Repr

/-- The machine's state. The first eight fields are the record of 10_state.md R23, `modeCodes` is the parameter MODE_CODE of
00_scope.md R8 (no command changes it), and the last four are the model's own: the commands the host has issued and the block has
not yet taken, the index of the next command (10_state.md R21), the transactions issued so far (60_exceptions.md R245), and the
bus oracle. -/
structure State where
  devAddr : DevAddr
  mode : CachedMode
  fps : CachedFps
  pix : Vector (Option Int) 64
  therm : Option ThermValue
  itab : Option (Vector Bool 64)
  busy : Busy
  resp : Option Response
  modeCodes : ModeCodes
  port : List Word
  pos : Nat
  trace : List BusEvent
  oracle : BusOracle
  deriving DecidableEq, Repr

/-- The reasons for which the machine stops with a fault: NONE. "The block has no traps" (60_exceptions.md R238), an error is a
response, and no behaviour is `stuck` (93_implementation_defined.md part 1), so this type has no constructor (log 10). -/
inductive Fault where
  deriving DecidableEq, Repr

/-- The reasons for which the machine answers with no meaning. -/
inductive Refusal where
  /-- Raised by an arm of `exec` for an instruction that has no meaning yet. Safe. No arm raises it: all twenty commands have
  their meaning. -/
  | notModelled (mnemonic : String)
  deriving DecidableEq, Repr

/-- Construction of the block with the parameters DEVICE_ADDR and MODE_CODE (70_reset_and_hazards.md R260, 00_scope.md R8).
The four fields of the model's own start empty (log 2, 3, 4, 6); no transaction is issued (R261). -/
def State.construct (addr : DevAddr) (codes : ModeCodes) : State :=
  { devAddr := addr
    mode := .unknown
    fps := .unknown
    pix := Vector.replicate 64 none
    therm := none
    itab := none
    busy := .idle
    resp := none
    modeCodes := codes
    port := []
    pos := 0
    trace := []
    oracle := .unconstrained [] }

/-- The machine right after reset, with the default parameters of 00_scope.md R8. -/
def State.reset : State :=
  State.construct Config.deviceAddr Config.defaultModeCodes

end Sys2Proof.Machine
end

