-- ==== Sys2Proof/Machine/Operands.lean ====
section
/-! DEFINITION. What a command's operand fields mean (30_encoding.md R92 to R94) and the block's own number codes (10_state.md
R33, 60_exceptions.md R230). An idx operand is `u16(F)`, the field's `toNat` (R92). -/

namespace Sys2Proof.Machine

/-- A centi operand `t = s16(F) = u16(F) - 65536 * F[15]`, the temperature t/100 °C (30_encoding.md R93). -/
def centi (f : Field) : Int :=
  (f.toNat : Int) - 65536 * (f.getLsbD 15).toNat

/-- "the mode with MODE_CODE(m) = code" (41_control.md R152, 30_encoding.md R94): the whole 16-bit field is compared. For a
MODE_CODE that is not injective, which 00_scope.md R8 rules out, the first mode in R8's order (log 11). -/
def modeOfCode? (codes : ModeCodes) (code : Field) : Option DeviceMode :=
  if code = (codes.code .normal).setWidth 16 then some .normal
  else if code = (codes.code .sleep).setWidth 16 then some .sleep
  else if code = (codes.code .standBy60).setWidth 16 then some .standBy60
  else if code = (codes.code .standBy10).setWidth 16 then some .standBy10
  else none

/-- The interrupt mode of a code operand: 0 = Difference, 1 = Absolute (30_encoding.md R94). -/
def interruptModeOfCode? (code : Field) : Option InterruptMode :=
  if code = 0#16 then some .difference
  else if code = 1#16 then some .absolute
  else none

/-- The frame rate of a code operand: 0 = Fps10, 1 = Fps1 (30_encoding.md R94). -/
def fpsModeOfCode? (code : Field) : Option FpsMode :=
  if code = 0#16 then some .fps10
  else if code = 1#16 then some .fps1
  else none

/-- "`in_range(t)` is `-2000 < t < 2000` with t in centi-degrees" (41_control.md R159). -/
def inThresholdRange (t : Int) : Bool := decide (-2000 < t) && decide (t < 2000)

/-- The status codes of 60_exceptions.md R230. -/
def Status.code : Status → BitVec 3
  | .ok => 0
  | .invalidArgument => 1
  | .indexOutOfRange => 2
  | .busError => 3
  | .illegalCommand => 4
  | .deviceAsleep => 5
  | .notYetRead => 6

/-- The internal numbering of the cached mode (10_state.md R33). -/
def CachedMode.number : CachedMode → BitVec 3
  | .unknown => 0
  | .known .normal => 1
  | .known .sleep => 2
  | .known .standBy60 => 3
  | .known .standBy10 => 4

/-- The internal numbering of the cached frame rate (R33). -/
def CachedFps.number : CachedFps → BitVec 2
  | .unknown => 0
  | .known .fps10 => 1
  | .known .fps1 => 2

/-- Idle=0, Busy=1 (R33). -/
def Busy.number : Busy → BitVec 1
  | .idle => 0
  | .busy => 1

/-! ## Payload packing (30_encoding.md R102) -/

/-- The width in bits of a payload's packing. -/
def Payload.width : Payload → Nat
  | .none => 0
  | .pixel _ => 12
  | .therm _ => 12
  | .bytes2 _ _ => 16
  | .addr2 _ _ => 16
  | .status3 _ _ _ => 3
  | .fps _ => 4
  | .matrix _ => 768
  | .table _ => 64
  | .buserr _ _ => 9

/-- `q mod 4096` (two's complement). -/
def pixelPacked (q : Int) : Nat := (q % 4096).toNat

/-- Fields of `w` bits each, the first in the lowest bits. -/
def packCells (w : Nat) : List Nat → Nat
  | [] => 0
  | x :: xs => x + 2 ^ w * packCells w xs

/-- 0 = read, 1 = write. -/
def kindNumber : TransferKind → Nat
  | .read => 0
  | .write => 1

/-- The packing column of 30_encoding.md R102. -/
def Payload.packed : Payload → Nat
  | .none => 0
  | .pixel q => pixelPacked q
  | .therm v => (v.neg.toNat <<< 11) ||| (v.ip.toNat <<< 4) ||| v.fn.toNat
  | .bytes2 b0 b1 => (b1.toNat <<< 8) ||| b0.toNat
  | .addr2 lsb msb => (msb.toNat <<< 8) ||| lsb.toNat
  | .status3 t p i => (t.toNat <<< 2) ||| (p.toNat <<< 1) ||| i.toNat
  | .fps rate => rate
  | .matrix cells => packCells 12 (cells.toList.map pixelPacked)
  | .table cells => packCells 1 (cells.toList.map Bool.toNat)
  | .buserr addr kind => (kindNumber kind <<< 8) ||| addr.toNat

end Sys2Proof.Machine
end

