-- ==== Sys2Proof/Machine/Memory.lean ====
section
/-! DEFINITION. Byte memory in canonical form: RD's array D (20_memory.md R78). The block itself has no memory. -/

namespace Sys2Proof.Machine

/-- What an address that is not listed reads as. DESIGN CHOICE: R78 gives D no contents of its own, a test states them (log 7). -/
def Memory.unlisted : Byte := 0

/-- Every listed address is at least `lo` and below 256 ("a 256-byte array", R78), the addresses rise strictly, and no listed
byte is the unlisted one. -/
def Memory.wfFrom (lo : Nat) : Memory → Bool
  | [] => true
  | (a, b) :: rest => decide (lo ≤ a) && decide (a < 256) && decide (b ≠ Memory.unlisted) && Memory.wfFrom (a + 1) rest

/-- The canonical form. -/
def Memory.wf (m : Memory) : Bool := Memory.wfFrom 0 m

/-- The byte at an address. -/
def Memory.read (m : Memory) (a : Nat) : Byte :=
  match m with
  | [] => Memory.unlisted
  | (a', b) :: rest => if a' = a then b else Memory.read rest a

/-- A cell before the rest of a memory, left out if it holds the unlisted byte. -/
def Memory.cons (a : Nat) (b : Byte) (m : Memory) : Memory :=
  if b = Memory.unlisted then m else (a, b) :: m

/-- `D[a] <- b`, keeping the canonical form. -/
def Memory.write (m : Memory) (a : Nat) (b : Byte) : Memory :=
  match m with
  | [] => Memory.cons a b []
  | (a', b') :: rest =>
    if a < a' then Memory.cons a b ((a', b') :: rest)
    else if a = a' then Memory.cons a b rest
    else (a', b') :: Memory.write rest a b

end Sys2Proof.Machine
end

