-- ==== Sys2Proof/Machine/Ops.lean ====
section
/-! DEFINITION. The operations every command is made of: taking a command from the port, bus transactions, the sleep guard,
raising an error and responding (00_scope.md R12, R13; 41_control.md R150, R151; 60_exceptions.md). Each command ends in a State,
since it always ends with a response. -/

namespace Sys2Proof.Machine

/-! ## Ending a command -/

/-- The response of an error: a status, and for BusError the failed transaction's address and kind (30_encoding.md R101,
60_exceptions.md R230). -/
def Error.response : Error → Response
  | .invalidArgument => ⟨.invalidArgument, .none⟩
  | .indexOutOfRange => ⟨.indexOutOfRange, .none⟩
  | .busError addr kind => ⟨.busError, .buserr addr kind⟩
  | .illegalCommand => ⟨.illegalCommand, .none⟩
  | .deviceAsleep => ⟨.deviceAsleep, .none⟩
  | .notYetRead => ⟨.notYetRead, .none⟩

/-- The end of every command: S.resp is overwritten and the block becomes Idle (10_state.md R30, R31; 60_exceptions.md R238). -/
def deliver (r : Response) (s : State) : State :=
  { s with resp := some r, busy := .idle }

/-- `respond(payload)`: "ends the command with status OK and the payload" (00_scope.md R12). -/
def respond (p : Payload) (s : State) : State :=
  deliver ⟨.ok, p⟩ s

/-- `raise E(info)`, THE way every error is taken: it "ends the current command at once with status E; the state writes and bus
transactions already performed by that command stay performed" (00_scope.md R12). There is no vector, no saved context and no
return (60_exceptions.md R238, R240). -/
def raiseError (e : Error) (s : State) : State :=
  deliver e.response s

/-! ## State writes -/

/-- `S.mode <- m` -/
def State.setMode (m : DeviceMode) (s : State) : State := { s with mode := .known m }

/-- `S.fps <- f` -/
def State.setFps (f : FpsMode) (s : State) : State := { s with fps := .known f }

/-- `S.pix[i] <- q` -/
def State.setPixel (i : Fin 64) (q : Int) (s : State) : State :=
  { s with pix := s.pix.set i (some q) }

/-- `S.therm <- v` -/
def State.setTherm (v : ThermValue) (s : State) : State := { s with therm := some v }

/-- `S.itab <- T` -/
def State.setTable (t : Vector Bool 64) (s : State) : State := { s with itab := some t }

/-! ## The bus -/

/-- RD's answer to its next transaction: a fault if the transaction's ordinal is listed as failing, else success, with `D[a]`
for a read (20_memory.md R78). -/
def RefDevice.answer (rd : RefDevice) (rq : BusRequest) : BusAnswer :=
  if (rd.served + 1) ∈ rd.failing then .fault
  else
    match rq with
    | .read _ a => .ok (rd.bytes.read a.toNat)
    | .write _ _ v => .ok v

/-- RD after a transaction with that outcome: a successful write sets `D[a]`, "a failed transaction changes nothing" (R78), and
the transaction is counted. -/
def RefDevice.after (rd : RefDevice) (rq : BusRequest) (ans : BusAnswer) : RefDevice :=
  match rq, ans with
  | .write _ a v, .ok _ => { rd with bytes := rd.bytes.write a.toNat v, served := rd.served + 1 }
  | _, _ => { rd with served := rd.served + 1 }

/-- The answer the bus gives to a transaction issued now (20_memory.md R59, R61). -/
def busAnswer (s : State) (rq : BusRequest) : BusAnswer :=
  match s.oracle with
  | .unconstrained [] => Config.freeAnswer s.trace rq
  | .unconstrained (a :: _) => a
  | .reference rd => rd.answer rq

/-- The oracle after a transaction. -/
def BusOracle.after (o : BusOracle) (rq : BusRequest) (ans : BusAnswer) : BusOracle :=
  match o with
  | .unconstrained foretold => .unconstrained foretold.tail
  | .reference rd => .reference (rd.after rq ans)

/-- A transaction with its outcome, as the bus shows it. -/
def busEvent : BusRequest → BusAnswer → BusEvent
  | .read dev addr, .ok b => .readOk dev addr b
  | .read dev addr, .fault => .readFault dev addr
  | .write dev addr data, .ok _ => .writeOk dev addr data
  | .write dev addr data, .fault => .writeFault dev addr data

/-- The state once a transaction has had its outcome: only the trace and the oracle move (20_memory.md R63: one at a time, in
order, never reordered or repeated). -/
def afterTransaction (rq : BusRequest) (ans : BusAnswer) (s : State) : State :=
  { s with trace := s.trace ++ [busEvent rq ans], oracle := s.oracle.after rq ans }

/-- `b <- MemRead(a, 1)`: one read transaction at S.dev_addr; a fault raises BusError at once, else `k` goes on with the byte
(00_scope.md R12, R13; 20_memory.md R59, R60). -/
def memRead (a : Byte) (s : State) (k : Byte → State → State) : State :=
  match busAnswer s (.read s.devAddr a) with
  | .fault => raiseError (.busError a .read) (afterTransaction (.read s.devAddr a) .fault s)
  | .ok b => k b (afterTransaction (.read s.devAddr a) (.ok b) s)

/-- `MemWrite(a, 1, v)`: one write transaction at S.dev_addr (R12, R13). A write that succeeds returns nothing, so the byte of the
answer is not looked at (log 5). -/
def memWrite (a v : Byte) (s : State) (k : State → State) : State :=
  match busAnswer s (.write s.devAddr a v) with
  | .fault => raiseError (.busError a .write) (afterTransaction (.write s.devAddr a v) .fault s)
  | .ok _ => k (afterTransaction (.write s.devAddr a v) (.ok v) s)

/-- Single-byte writes one after another; the first that fails ends the command and none after it is issued (41_control.md
R158). -/
def memWriteSeq : List (Byte × Byte) → State → (State → State) → State
  | [], s, k => k s
  | (a, v) :: rest, s, k => memWrite a v s fun s => memWriteSeq rest s k

/-! ## The sleep guard -/

/-- 41_control.md R151: while S.mode = Sleep every bus command raises DeviceAsleep, unless it is SET_MODE with target Normal
(`wakes`). When S.mode is Unknown it lets every command through. -/
def sleepGuard (wakes : Bool) (s : State) (k : State → State) : State :=
  if s.mode = .known .sleep ∧ wakes = false then raiseError .deviceAsleep s else k s

/-! ## The command port -/

/-- Taking the next command: it leaves the port, the block becomes Busy and the index k advances by exactly 1 (10_state.md R21,
R30). `rest` is what stays on the port. -/
def accept (rest : List Word) (s : State) : State :=
  { s with port := rest, busy := .busy, pos := s.pos + 1 }

/-- The command word the block takes now and the state in which it runs: none while Busy ("the command port accepts no command:
the host's next command waits", 10_state.md R30) and none when no command waits (70_reset_and_hazards.md R260). -/
def fetch (s : State) : Option (Word × State) :=
  match s.busy, s.port with
  | .busy, _ => none
  | .idle, [] => none
  | .idle, w :: rest => some (w, accept rest s)

/-- A word that is not well-formed: "no state changes, no bus transaction, and the response is IllegalCommand"
(30_encoding.md R96, 60_exceptions.md R234). -/
def refuseWord (s : State) : State :=
  raiseError .illegalCommand s

end Sys2Proof.Machine
end

