-- ==== Sys2Proof/Machine/Accessors.lean ====
section
/-! DEFINITION. The accessor commands (43_accessors.md): no transaction, no guard; an Unset entry gives NotYetRead (R210). -/

namespace Sys2Proof.Machine

/-- GET_MATRIX (R211): NotYetRead when any cell is Unset. -/
def execGetPixelTemperatureMatrix (s : State) : Host.Outcome State Fault Refusal :=
  .next
    (if h : ∀ i : Fin 64, (s.pix[i.val]).isSome = true then
       respond (.matrix (Vector.ofFn fun i : Fin 64 => (s.pix[i.val]).get (h i))) s
     else raiseError .notYetRead s)

/-- GET_PIXEL (R212): x is the row and y the column; the index is checked first. -/
def execGetPixelTemperature (x y : Field) (s : State) : Host.Outcome State Fault Refusal :=
  .next
    (if h : 7 < x.toNat ∨ 7 < y.toNat then raiseError .indexOutOfRange s
     else
       match s.pix[8 * x.toNat + y.toNat]'(by omega) with
       | none => raiseError .notYetRead s
       | some v => respond (.pixel v) s)

/-- GET_THERM (R213). -/
def execGetThermistorTemperature (s : State) : Host.Outcome State Fault Refusal :=
  .next
    (match s.therm with
     | none => raiseError .notYetRead s
     | some v => respond (.therm v) s)

/-- GET_INT_TABLE (R214). -/
def execGetInterruptTable (s : State) : Host.Outcome State Fault Refusal :=
  .next
    (match s.itab with
     | none => raiseError .notYetRead s
     | some t => respond (.table t) s)

end Sys2Proof.Machine
end

