-- ==== Sys2Proof/Machine/BitCodec.lean ====
section
/-! DEFINITION. The pure functions of 40_codec.md: R122, R124, R125, R127. -/

namespace Sys2Proof.Machine

/-- `decode_pixel_fn(lsb, msb)` (40_codec.md R122): the 12-bit union u, then `q <- u - 4096 * u[11]`. -/
def decodePixelFn (lsb msb : Byte) : Int :=
  let u : BitVec 12 := ((msb.extractLsb' 0 4).setWidth 12 <<< 8) ||| lsb.setWidth 12
  (u.toNat : Int) - 4096 * (u.getLsbD 11).toNat

/-- `decode_therm_fn(lsb, msb)`, THERM_LAYOUT = Shifted (40_codec.md R124). -/
def decodeThermFn (lsb msb : Byte) : ThermValue :=
  { neg := msb.getLsbD 3
    ip := ((msb.extractLsb' 0 3).setWidth 7 <<< 4) ||| (lsb.extractLsb' 4 4).setWidth 7
    fn := lsb.extractLsb' 0 4 }

/-- `encode_thresh_fn(t)`: m = (|t| + 12) div 25, its two's complement in 12 bits when t < 0, split into a low byte and a high
nibble (40_codec.md R127). -/
def encodeThreshFn (t : Int) : Byte × Byte :=
  let m : BitVec 12 := BitVec.ofNat 12 ((t.natAbs + 12) / 25)
  let f : BitVec 12 := if 0 ≤ t then m else ~~~m + 1
  (f.extractLsb' 0 8, (f.extractLsb' 8 4).setWidth 8)

/-- The temperature of a pixel reading in degrees Celsius, q/4 (00_scope.md R14). -/
def pixelCelsius (q : Int) : Rat := (q : Rat) / 4

/-- `frac(fn)`: 0 if fn = 0, else 1/fn (40_codec.md R125). -/
def thermFrac (fn : BitVec 4) : Rat :=
  if fn = 0#4 then 0 else 1 / (fn.toNat : Rat)

/-- `therm_celsius(neg, ip, fn) = sign(neg) * (ip + frac(fn))`, an exact rational (40_codec.md R125). -/
def thermCelsius (v : ThermValue) : Rat :=
  (if v.neg then -1 else 1) * ((v.ip.toNat : Rat) + thermFrac v.fn)

end Sys2Proof.Machine
end

