-- ==== Sys2Proof/Machine/RegisterMap.lean ====
section
/-! DEFINITION. The device register map as the block uses it (20_memory.md R57) and the pixel pair addresses (40_codec.md
R130). -/

namespace Sys2Proof.Machine

/-- 0x00 mode (R68) -/
abbrev regMode : Byte := 0x00
/-- 0x01 reset (R69) -/
abbrev regReset : Byte := 0x01
/-- 0x02 frame rate (R70) -/
abbrev regFrameRate : Byte := 0x02
/-- 0x03 interrupt control (R71) -/
abbrev regInterruptControl : Byte := 0x03
/-- 0x04 status (R72) -/
abbrev regStatus : Byte := 0x04
/-- 0x05 clear status (R73) -/
abbrev regClearStatus : Byte := 0x05
/-- 0x08 high threshold, low byte; the high byte follows at 0x09 (R75, R53) -/
abbrev regHighThreshold : Byte := 0x08
/-- 0x0A low threshold, low byte (R75) -/
abbrev regLowThreshold : Byte := 0x0A
/-- 0x0C hysteresis, low byte (R75) -/
abbrev regHysteresis : Byte := 0x0C
/-- 0x0E thermistor, low byte (R74) -/
abbrev regThermistorLow : Byte := 0x0E
/-- 0x0F thermistor, high byte (R74) -/
abbrev regThermistorHigh : Byte := 0x0F

/-- 0x10 + r: row r of the interrupt table (R76). -/
def regTableRow (r : Fin 8) : Byte := 0x10 + BitVec.ofNat 8 r.val

/-- The value RESET_FLAGS writes: "clears status/interrupt/table, preserves settings" (R69). -/
abbrev resetFlagsValue : Byte := 0x30
/-- The value RESET_ALL writes: "also restores default settings" (R69). -/
abbrev resetAllValue : Byte := 0x3F

/-- `pixel_register_pair_fn(row, col)`: i = 8*row + col, addr_lsb = PIXEL_BASE + 2*i, addr_msb = addr_lsb + 1 (40_codec.md
R130). -/
def pixelRegisterPairFn (row col : Nat) : Byte × Byte :=
  let i := 8 * row + col
  let lsb := Config.pixelBase + BitVec.ofNat 8 (2 * i)
  (lsb, lsb + 1)

end Sys2Proof.Machine
end

