-- ==== Sys2Proof/Machine/Codec.lean ====
section
/-! DEFINITION. The codec commands (40_codec.md): pure, no guard, no transaction (R120). -/

namespace Sys2Proof.Machine

/-- DECODE_PIXEL (R121). -/
def execDecodePixel (lsb msb : Byte) (s : State) : Host.Outcome State Fault Refusal :=
  .next (respond (.pixel (decodePixelFn lsb msb)) s)

/-- DECODE_THERM (R123). -/
def execDecodeThermistor (lsb msb : Byte) (s : State) : Host.Outcome State Fault Refusal :=
  .next (respond (.therm (decodeThermFn lsb msb)) s)

/-- ENCODE_THRESHOLD (R126): no range check. -/
def execEncodeThreshold (t : Field) (s : State) : Host.Outcome State Fault Refusal :=
  .next (respond (.bytes2 (encodeThreshFn (centi t)).1 (encodeThreshFn (centi t)).2) s)

/-- PIXEL_PAIR (R129): IndexOutOfRange unless row and col are in [0, 7]. -/
def execPixelRegisterPair (row col : Field) (s : State) : Host.Outcome State Fault Refusal :=
  .next
    (if 7 < row.toNat ∨ 7 < col.toNat then raiseError .indexOutOfRange s
     else respond (.addr2 (pixelRegisterPairFn row.toNat col.toNat).1 (pixelRegisterPairFn row.toNat col.toNat).2) s)

end Sys2Proof.Machine
end

