-- ==== Sys2Proof/Machine/Flags.lean ====
section
/-! DEFINITION. The block has no flags of its own (10_state.md R32). These are the bit fields of the device's status,
clear-status and interrupt-control registers (20_memory.md R71, R72, R73), read or written fresh and never cached. -/

namespace Sys2Proof.Machine

/-- The three flags of a status byte: bit 3 thermistor_overflow, bit 2 pixel_overflow, bit 1 interrupt_fired; the other bits
are not interpreted (20_memory.md R72). -/
def statusFlags (b : Byte) : Payload :=
  .status3 (b.getLsbD 3) (b.getLsbD 2) (b.getLsbD 1)

/-- A Bool as a byte, 1 or 0. -/
def flagByte (b : Bool) : Byte := if b then 1#8 else 0#8

/-- "`therm<<3 | pixel<<2 | interrupt<<1`" (20_memory.md R73, 41_control.md R154). -/
def clearFlagsByte (interrupt pixelOverflow thermistorOverflow : Bool) : Byte :=
  (flagByte thermistorOverflow <<< 3) ||| (flagByte pixelOverflow <<< 2) ||| (flagByte interrupt <<< 1)

/-- "`mode<<1 | enabled`" (20_memory.md R71, 41_control.md R157). -/
def interruptControlByte (enabled : Bool) (mode : InterruptMode) : Byte :=
  (Config.intModeCode mode <<< 1) ||| flagByte enabled

end Sys2Proof.Machine
end

