-- ==== Sys2Proof/Machine/Control.lean ====
section
/-! DEFINITION. The configuration and status commands (41_control.md), each in the order of R150: argument check, sleep guard,
transactions, state write, response. -/

namespace Sys2Proof.Machine

/-- SET_MODE (R152). -/
def execSetMode (mode : Field) (s : State) : Host.Outcome State Fault Refusal :=
  .next
    (match modeOfCode? s.modeCodes mode with
     | none => raiseError .invalidArgument s
     | some m =>
       sleepGuard (decide (m = .normal)) s fun s =>
       memWrite regMode (mode.extractLsb' 0 8) s fun s =>
       respond .none (s.setMode m))

/-- GET_STATUS (R153). -/
def execGetStatus (s : State) : Host.Outcome State Fault Refusal :=
  .next
    (sleepGuard false s fun s =>
     memRead regStatus s fun b s =>
     respond (statusFlags b) s)

/-- CLEAR_FLAGS (R154). -/
def execClearFlags (interrupt pixelOverflow thermistorOverflow : Bool) (s : State) : Host.Outcome State Fault Refusal :=
  .next
    (sleepGuard false s fun s =>
     memWrite regClearStatus (clearFlagsByte interrupt pixelOverflow thermistorOverflow) s fun s =>
     respond .none s)

/-- RESET_FLAGS (R155): no block state changes. -/
def execResetFlags (s : State) : Host.Outcome State Fault Refusal :=
  .next
    (sleepGuard false s fun s =>
     memWrite regReset resetFlagsValue s fun s =>
     respond .none s)

/-- RESET_ALL (R156): no block state changes. -/
def execResetFlagsAndSettings (s : State) : Host.Outcome State Fault Refusal :=
  .next
    (sleepGuard false s fun s =>
     memWrite regReset resetAllValue s fun s =>
     respond .none s)

/-- ENABLE_INT (R157). -/
def execEnableInterrupt (enabled : Bool) (mode : Field) (s : State) : Host.Outcome State Fault Refusal :=
  .next
    (match interruptModeOfCode? mode with
     | none => raiseError .invalidArgument s
     | some k =>
       sleepGuard false s fun s =>
       memWrite regInterruptControl (interruptControlByte enabled k) s fun s =>
       respond .none s)

/-- The six writes of SET_THRESHOLDS in order: high, low, hysteresis, low byte before high byte (R158, 20_memory.md R75). -/
def thresholdWrites (low high hysteresis : Int) : List (Byte × Byte) :=
  [ (regHighThreshold, (encodeThreshFn high).1), (regHighThreshold + 1, (encodeThreshFn high).2)
  , (regLowThreshold, (encodeThreshFn low).1), (regLowThreshold + 1, (encodeThreshFn low).2)
  , (regHysteresis, (encodeThreshFn hysteresis).1), (regHysteresis + 1, (encodeThreshFn hysteresis).2) ]

/-- SET_THRESHOLDS (R158): low and high are range-checked (R159), hysteresis is not, and low > high is accepted. -/
def execSetInterruptThresholds (low high hysteresis : Field) (s : State) : Host.Outcome State Fault Refusal :=
  .next
    (if inThresholdRange (centi low) && inThresholdRange (centi high) then
       sleepGuard false s fun s =>
       memWriteSeq (thresholdWrites (centi low) (centi high) (centi hysteresis)) s fun s =>
       respond .none s
     else raiseError .invalidArgument s)

/-- SET_FPS (R160). -/
def execSetFpsMode (mode : Field) (s : State) : Host.Outcome State Fault Refusal :=
  .next
    (match fpsModeOfCode? mode with
     | none => raiseError .invalidArgument s
     | some f =>
       sleepGuard false s fun s =>
       memWrite regFrameRate (Config.fpsCode f) s fun s =>
       respond .none (s.setFps f))

/-- GET_FPS (R161): "returns 1 if the stored raw value is non-zero, else 10". -/
def execGetFps (s : State) : Host.Outcome State Fault Refusal :=
  .next
    (sleepGuard false s fun s =>
     memRead regFrameRate s fun b s =>
     respond (.fps (if b ≠ 0#8 then 1 else 10)) s)

end Sys2Proof.Machine
end

