-- ==== Sys2Proof/Machine/Update.lean ====
section
/-! DEFINITION. The update commands (42_update.md), the only ones that write the caches. -/

namespace Sys2Proof.Machine

/-- Reading the given rows of the interrupt table in order, `row[r] <- MemRead(0x10 + r, 1)` (R190). -/
def readRows : List (Fin 8) → Vector Byte 8 → State → (Vector Byte 8 → State → State) → State
  | [], rows, s, k => k rows s
  | r :: rest, rows, s, k => memRead (regTableRow r) s fun b s => readRows rest (rows.set r b) s k

/-- "the 64-entry table with T[8*r + c] = row[r][c] for r, c in 0..7" (R190). -/
def tableOfRows (rows : Vector Byte 8) : Vector Bool 64 :=
  Vector.ofFn fun i : Fin 64 => (rows[i.val / 8]).getLsbD (i.val % 8)

/-- UPDATE_INT_TABLE (R190): eight reads in ascending order, then the table is committed as a whole. The rows start as zeros
and every one of them is overwritten before the table is made. -/
def execUpdateInterruptTable (s : State) : Host.Outcome State Fault Refusal :=
  .next
    (sleepGuard false s fun s =>
     readRows (List.finRange 8) (Vector.replicate 8 0#8) s fun rows s =>
     respond .none (s.setTable (tableOfRows rows)))

/-- The loop of R191 over the given cells: the pair's low byte, its high byte, then the cell is committed. -/
def updateCells : List (Fin 64) → State → (State → State) → State
  | [], s, k => k s
  | i :: rest, s, k =>
    memRead (pixelRegisterPairFn (i.val / 8) (i.val % 8)).1 s fun lsb s =>
    memRead (pixelRegisterPairFn (i.val / 8) (i.val % 8)).2 s fun msb s =>
    updateCells rest (s.setPixel i (decodePixelFn lsb msb)) k

/-- UPDATE_PIXELS (R191): 64 pairs in row-major order, committed cell by cell, with no rollback. -/
def execUpdatePixelTemperatureMatrix (s : State) : Host.Outcome State Fault Refusal :=
  .next
    (sleepGuard false s fun s =>
     updateCells (List.finRange 64) s fun s =>
     respond .none s)

/-- UPDATE_THERM (R192): low byte first. -/
def execUpdateThermistorTemperature (s : State) : Host.Outcome State Fault Refusal :=
  .next
    (sleepGuard false s fun s =>
     memRead regThermistorLow s fun lsb s =>
     memRead regThermistorHigh s fun msb s =>
     respond .none (s.setTherm (decodeThermFn lsb msb)))

end Sys2Proof.Machine
end

