-- ==== Sys2Proof/Machine/Dispatch.lean ====
section
/-! DEFINITION. One arm per command, each a direct call of its meaning. -/

namespace Sys2Proof.Machine

/-- What a command does (30_encoding.md R95). -/
def exec (i : Instr) (s : State) : Host.Outcome State Fault Refusal :=
  match i with
  | .decodePixel lsb msb => Sys2Proof.Machine.execDecodePixel lsb msb s
  | .decodeThermistor lsb msb => Sys2Proof.Machine.execDecodeThermistor lsb msb s
  | .encodeThreshold t => Sys2Proof.Machine.execEncodeThreshold t s
  | .pixelRegisterPair row col => Sys2Proof.Machine.execPixelRegisterPair row col s
  | .setMode mode => Sys2Proof.Machine.execSetMode mode s
  | .getStatus => Sys2Proof.Machine.execGetStatus s
  | .clearFlags interrupt pixelOverflow thermistorOverflow => Sys2Proof.Machine.execClearFlags interrupt pixelOverflow thermistorOverflow s
  | .resetFlags => Sys2Proof.Machine.execResetFlags s
  | .resetFlagsAndSettings => Sys2Proof.Machine.execResetFlagsAndSettings s
  | .enableInterrupt enabled mode => Sys2Proof.Machine.execEnableInterrupt enabled mode s
  | .setInterruptThresholds low high hysteresis => Sys2Proof.Machine.execSetInterruptThresholds low high hysteresis s
  | .setFpsMode mode => Sys2Proof.Machine.execSetFpsMode mode s
  | .getFps => Sys2Proof.Machine.execGetFps s
  | .updateInterruptTable => Sys2Proof.Machine.execUpdateInterruptTable s
  | .updatePixelTemperatureMatrix => Sys2Proof.Machine.execUpdatePixelTemperatureMatrix s
  | .updateThermistorTemperature => Sys2Proof.Machine.execUpdateThermistorTemperature s
  | .getPixelTemperatureMatrix => Sys2Proof.Machine.execGetPixelTemperatureMatrix s
  | .getPixelTemperature x y => Sys2Proof.Machine.execGetPixelTemperature x y s
  | .getThermistorTemperature => Sys2Proof.Machine.execGetThermistorTemperature s
  | .getInterruptTable => Sys2Proof.Machine.execGetInterruptTable s

end Sys2Proof.Machine
end

