-- ==== Sys2Proof/Machine/Step.lean ====
section
/-! DEFINITION. One step: the block takes one waiting command, performs it to completion and responds (10_state.md R20, R21,
R30). -/

namespace Sys2Proof.Machine

/-- One step. With no command to take (none waits, or the block is Busy) the block waits and nothing changes (log 2); a word
that is no command is refused with IllegalCommand before anything else (41_control.md R150 (1)). -/
def step (s : State) : Host.Outcome State Fault Refusal :=
  match fetch s with
  | none => .next s
  | some (w, s') =>
    match decode w with
    | .ok i => exec i s'
    | .error _ => .next (refuseWord s')

/-- The state in which the very next step takes and runs the command word `w` (bits numbered as the opcode table numbers them,
the bits from `nbits` on 0): the word comes first on the port and the block is Idle. Commands come from the host through the port
and from nowhere else (10_state.md R21), so this stands for the host issuing the command (log 2). -/
def State.withFetchWord (s : State) (nbits w : Nat) : State :=
  { s with port := BitVec.ofNat 64 (w % 2 ^ nbits) :: s.port, busy := .idle }

end Sys2Proof.Machine
end

