-- ==== Sys2Proof/Machine/Assembler.lean ====
section
/-! DEFINITION. The assembler's text form (30_encoding.md R99) and its pseudo-instructions (R100). It is no part of the step: it
says which command word a written command stands for. -/

namespace Sys2Proof.Machine

/-- Why the assembler rejects a line (30_encoding.md R99). -/
inductive AsmError where
  | unknownMnemonic
  | operandCount
  | badOperand
  | operandRange
  deriving DecidableEq, Repr

/-- The operand kinds as the assembler tells them apart: a code operand has the symbols of its own command (R99). -/
inductive AsmKind where
  | byte | bool | idx | modeCode | interruptCode | fpsCode | centi
  deriving DecidableEq, Repr

/-- The symbols of R99. -/
def AsmKind.symbol? (codes : ModeCodes) (k : AsmKind) (t : List Char) : Option Int :=
  match k with
  | .bool =>
    if t = "true".toList then some 1
    else if t = "false".toList then some 0
    else none
  | .modeCode =>
    if t = "normal".toList then some codes.normal.toNat
    else if t = "sleep".toList then some codes.sleep.toNat
    else if t = "standby60".toList then some codes.standBy60.toNat
    else if t = "standby10".toList then some codes.standBy10.toNat
    else none
  | .interruptCode =>
    if t = "difference".toList then some 0
    else if t = "absolute".toList then some 1
    else none
  | .fpsCode =>
    if t = "fps10".toList then some 0
    else if t = "fps1".toList then some 1
    else none
  | .byte => none
  | .idx => none
  | .centi => none

/-- "The assembler rejects a byte operand outside 0..255, a bool outside {0, 1}, an idx or code outside 0..65535, a centi outside
-32768..32767" (R99). -/
def AsmKind.inRange : AsmKind → Int → Bool
  | .byte, n => decide (0 ≤ n) && decide (n ≤ 255)
  | .bool, n => decide (0 ≤ n) && decide (n ≤ 1)
  | .idx, n => decide (0 ≤ n) && decide (n ≤ 65535)
  | .modeCode, n => decide (0 ≤ n) && decide (n ≤ 65535)
  | .interruptCode, n => decide (0 ≤ n) && decide (n ≤ 65535)
  | .fpsCode, n => decide (0 ≤ n) && decide (n ≤ 65535)
  | .centi, n => decide (-32768 ≤ n) && decide (n ≤ 32767)

/-- One digit in base 10 or 16, either case. -/
def digit? (base : Nat) (c : Char) : Option Nat :=
  let n := c.toNat
  let d :=
    if 48 ≤ n ∧ n ≤ 57 then some (n - 48)
    else if 97 ≤ n ∧ n ≤ 102 then some (n - 87)
    else if 65 ≤ n ∧ n ≤ 70 then some (n - 55)
    else none
  match d with
  | some v => if v < base then some v else none
  | none => none

/-- Digits after a value so far. -/
def digitsFrom (base : Nat) (acc : Nat) : List Char → Option Nat
  | [] => some acc
  | c :: cs =>
    match digit? base c with
    | some d => digitsFrom base (acc * base + d) cs
    | none => none

/-- A number of at least one digit. -/
def number? (base : Nat) : List Char → Option Nat
  | [] => none
  | c :: cs => digitsFrom base 0 (c :: cs)

/-- "Integer operands are decimal (optionally signed) or `0x` hexadecimal" (R99). -/
def integer? : List Char → Option Int
  | '0' :: 'x' :: cs => (number? 16 cs).map Int.ofNat
  | '-' :: cs => (number? 10 cs).map fun n : Nat => -(n : Int)
  | '+' :: cs => (number? 10 cs).map Int.ofNat
  | cs => (number? 10 cs).map Int.ofNat

/-- One operand as a value in its range. -/
def operandValue (codes : ModeCodes) (k : AsmKind) (t : List Char) : Except AsmError Int :=
  match k.symbol? codes t with
  | some n => .ok n
  | none =>
    match integer? t with
    | none => .error .badOperand
    | some n => if k.inRange n then .ok n else .error .operandRange

/-- All operands of a command; "a wrong operand count" is rejected (R99). -/
def operandValues (codes : ModeCodes) : List AsmKind → List (List Char) → Except AsmError (List Int)
  | [], [] => .ok []
  | k :: ks, t :: ts =>
    match operandValue codes k t with
    | .error e => .error e
    | .ok v =>
      match operandValues codes ks ts with
      | .error e => .error e
      | .ok vs => .ok (v :: vs)
  | [], _ :: _ => .error .operandCount
  | _ :: _, [] => .error .operandCount

/-- The operand kinds of a mnemonic (30_encoding.md R95), and how its values make the command. -/
structure AsmForm where
  name : List Char
  kinds : List AsmKind
  opcode : Byte
  deriving DecidableEq, Repr

/-- The mnemonics of 30_encoding.md R95 with their operand columns. -/
def asmForms : List AsmForm :=
  [ ⟨"decode_pixel".toList, [.byte, .byte], 0x01#8⟩
  , ⟨"decode_thermistor".toList, [.byte, .byte], 0x02#8⟩
  , ⟨"encode_threshold".toList, [.centi], 0x03#8⟩
  , ⟨"pixel_register_pair".toList, [.idx, .idx], 0x04#8⟩ ]
  ++
  [ ⟨"set_mode".toList, [.modeCode], 0x10#8⟩
  , ⟨"get_status".toList, [], 0x11#8⟩
  , ⟨"clear_flags".toList, [.bool, .bool, .bool], 0x12#8⟩
  , ⟨"reset_flags".toList, [], 0x13#8⟩
  , ⟨"reset_flags_and_settings".toList, [], 0x14#8⟩
  , ⟨"enable_interrupt".toList, [.bool, .interruptCode], 0x15#8⟩
  , ⟨"set_interrupt_thresholds".toList, [.centi, .centi, .centi], 0x16#8⟩
  , ⟨"set_fps_mode".toList, [.fpsCode], 0x17#8⟩
  , ⟨"get_fps".toList, [], 0x18#8⟩ ]
  ++
  [ ⟨"update_interrupt_table".toList, [], 0x20#8⟩
  , ⟨"update_pixel_temperature_matrix".toList, [], 0x21#8⟩
  , ⟨"update_thermistor_temperature".toList, [], 0x22#8⟩
  , ⟨"get_pixel_temperature_matrix".toList, [], 0x30#8⟩
  , ⟨"get_pixel_temperature".toList, [.idx, .idx], 0x31#8⟩
  , ⟨"get_thermistor_temperature".toList, [], 0x32#8⟩
  , ⟨"get_interrupt_table".toList, [], 0x33#8⟩ ]

/-- The omitted operands of the pseudo-instructions, from the source's default arguments (30_encoding.md R100). -/
def withDefaults (op : Byte) (operands : List (List Char)) : List (List Char) :=
  if op = 0x12#8 then
    match operands with
    | [] => ["true".toList, "true".toList, "true".toList]
    | ts => ts
  else if op = 0x15#8 then
    match operands with
    | [] => ["true".toList, "absolute".toList]
    | [e] => [e, "absolute".toList]
    | ts => ts
  else if op = 0x16#8 then
    match operands with
    | [lo, hi] => [lo, hi, "0".toList]
    | ts => ts
  else operands

/-- The field of a slot: the value modulo 2^16, 0 where there is no operand (30_encoding.md R90, R92). -/
def slotField (values : List Int) (n : Nat) : Field :=
  BitVec.ofInt 16 (values.getD n 0)

/-- Cutting at every occurrence of a character; a text without it is one piece. -/
def splitOn (sep : Char) : List Char → List (List Char)
  | [] => [[]]
  | c :: cs =>
    if c = sep then [] :: splitOn sep cs
    else
      match splitOn sep cs with
      | [] => [[c]]
      | p :: ps => (c :: p) :: ps

/-- A text without the spaces at its two ends. -/
def trim (t : List Char) : List Char :=
  (((t.dropWhile (· = ' ')).reverse).dropWhile (· = ' ')).reverse

/-- The operand texts of a line's rest: none if it is blank, else its pieces between commas (R99). -/
def operandTexts (rest : List Char) : List (List Char) :=
  if trim rest = [] then [] else (splitOn ',' rest).map trim

/-- The command word of a written command (30_encoding.md R99, R100, R91). Spaces: log 16. -/
def assemble (codes : ModeCodes) (line : List Char) : Except AsmError Word :=
  let t := trim line
  match asmForms.find? (fun f => decide (f.name = t.takeWhile (· ≠ ' '))) with
  | none => .error .unknownMnemonic
  | some f =>
    match operandValues codes f.kinds (withDefaults f.opcode (operandTexts (t.dropWhile (· ≠ ' ')))) with
    | .error e => .error e
    | .ok vs => .ok (Command.toWord ⟨f.opcode, slotField vs 0, slotField vs 1, slotField vs 2, 0#8⟩)

end Sys2Proof.Machine
end

