-- ==== Sys2Proof/Safety.lean ====
section
/-! DEFINITION. The words the claims use: the invariant of a run, well-formed responses, the register map's columns (20_memory.md
R57), the transactions a command may issue (70_reset_and_hazards.md R270), and the texts of a written command (30_encoding.md R99). -/

namespace Sys2Proof.Machine

/-! ## The invariant -/

/-- "-2048 <= q <= 2047" (00_scope.md R14). -/
def PixelInRange (q : Int) : Prop := -2048 ≤ q ∧ q ≤ 2047

/-- A payload of the domains of 30_encoding.md R102: pixels in range, a frame rate of 1 or 10. -/
def Payload.InDomain : Payload → Prop
  | .pixel q => PixelInRange q
  | .matrix cells => ∀ i : Fin 64, PixelInRange cells[i.val]
  | .fps rate => rate = 1 ∨ rate = 10
  | .bytes2 _ b1 => b1.toNat < 16
  | _ => True

/-- Two payloads of one row of 30_encoding.md R102. -/
def Payload.SameKind : Payload → Payload → Prop
  | .none, .none => True
  | .pixel _, .pixel _ => True
  | .therm _, .therm _ => True
  | .bytes2 _ _, .bytes2 _ _ => True
  | .addr2 _ _, .addr2 _ _ => True
  | .status3 _ _ _, .status3 _ _ _ => True
  | .fps _, .fps _ => True
  | .matrix _, .matrix _ => True
  | .table _, .table _ => True
  | .buserr _ _, .buserr _ _ => True
  | _, _ => False

/-- The payload that goes with a status (30_encoding.md R101): for OK a command's payload, for BusError the failed transaction,
for every other error nothing. -/
def Response.WellFormed (r : Response) : Prop :=
  match r.status with
  | .ok => r.payload.InDomain ∧ ∀ a k, r.payload ≠ .buserr a k
  | .busError => ∃ a k, r.payload = .buserr a k
  | _ => r.payload = .none

/-- The oracle's plain data is well-formed: RD's array is in canonical form (20_memory.md R78). -/
def BusOracle.WellFormed : BusOracle → Prop
  | .unconstrained _ => True
  | .reference rd => rd.bytes.wf = true

/-- What every step keeps: between commands the block is Idle (10_state.md R30), MODE_CODE is injective (00_scope.md R8), every
cached pixel is a PixelValue (10_state.md R27), the last response is well-formed (30_encoding.md R101), and RD's array is in
canonical form. -/
structure State.Inv (s : State) : Prop where
  idle : s.busy = .idle
  codes : s.modeCodes.Injective
  pixels : ∀ (i : Fin 64) (q : Int), s.pix[i.val] = some q → PixelInRange q
  response : ∀ r, s.resp = some r → r.WellFormed
  oracle : s.oracle.WellFormed

/-! ## Classes of commands -/

/-- The codec commands (40_codec.md R120). -/
def isCodec : Instr → Bool
  | .decodePixel _ _ => true
  | .decodeThermistor _ _ => true
  | .encodeThreshold _ => true
  | .pixelRegisterPair _ _ => true
  | .setMode _ => false
  | .getStatus => false
  | .clearFlags _ _ _ => false
  | .resetFlags => false
  | .resetFlagsAndSettings => false
  | .enableInterrupt _ _ => false
  | .setInterruptThresholds _ _ _ => false
  | .setFpsMode _ => false
  | .getFps => false
  | .updateInterruptTable => false
  | .updatePixelTemperatureMatrix => false
  | .updateThermistorTemperature => false
  | .getPixelTemperatureMatrix => false
  | .getPixelTemperature _ _ => false
  | .getThermistorTemperature => false
  | .getInterruptTable => false

/-- The accessors (43_accessors.md R210). -/
def isAccessor : Instr → Bool
  | .getPixelTemperatureMatrix => true
  | .getPixelTemperature _ _ => true
  | .getThermistorTemperature => true
  | .getInterruptTable => true
  | .decodePixel _ _ => false
  | .decodeThermistor _ _ => false
  | .encodeThreshold _ => false
  | .pixelRegisterPair _ _ => false
  | .setMode _ => false
  | .getStatus => false
  | .clearFlags _ _ _ => false
  | .resetFlags => false
  | .resetFlagsAndSettings => false
  | .enableInterrupt _ _ => false
  | .setInterruptThresholds _ _ _ => false
  | .setFpsMode _ => false
  | .getFps => false
  | .updateInterruptTable => false
  | .updatePixelTemperatureMatrix => false
  | .updateThermistorTemperature => false

/-- The bus commands: "the nine of this file and the three of 42_update.md" (41_control.md R150). -/
def isBusCommand (i : Instr) : Bool := !isCodec i && !isAccessor i

/-- The argument check of 41_control.md R150 (2) passes: every code names a value and both thresholds are in range. -/
def argumentsValid (codes : ModeCodes) : Instr → Prop
  | .setMode mode => ∃ m, mode = (codes.code m).setWidth 16
  | .enableInterrupt _ mode => mode.toNat ≤ 1
  | .setInterruptThresholds low high _ => (-2000 < low.toInt ∧ low.toInt < 2000) ∧ (-2000 < high.toInt ∧ high.toInt < 2000)
  | .setFpsMode mode => mode.toNat ≤ 1
  | .pixelRegisterPair row col => row.toNat ≤ 7 ∧ col.toNat ≤ 7
  | .getPixelTemperature x y => x.toNat ≤ 7 ∧ y.toNat ≤ 7
  | _ => True

/-- "SET_MODE and target_mode = Normal" (41_control.md R151). -/
def isWake (codes : ModeCodes) : Instr → Prop
  | .setMode mode => mode = codes.normal.setWidth 16
  | _ => False

/-! ## Transactions -/

/-- The device address of a transaction. -/
def eventDev : BusEvent → DevAddr
  | .readOk d _ _ => d
  | .readFault d _ => d
  | .writeOk d _ _ => d
  | .writeFault d _ _ => d

/-- The register address of a transaction. -/
def eventAddr : BusEvent → Byte
  | .readOk _ a _ => a
  | .readFault _ a => a
  | .writeOk _ a _ => a
  | .writeFault _ a _ => a

/-- Read or write. -/
def eventKind : BusEvent → TransferKind
  | .readOk _ _ _ => .read
  | .readFault _ _ => .read
  | .writeOk _ _ _ => .write
  | .writeFault _ _ _ => .write

/-- The transaction failed. -/
def eventFailed : BusEvent → Bool
  | .readOk _ _ _ => false
  | .readFault _ _ => true
  | .writeOk _ _ _ => false
  | .writeFault _ _ _ => true

/-- The register map's "block access" column: R (20_memory.md R57). -/
def mapReads (a : Byte) : Prop :=
  a = 0x02 ∨ a = 0x04 ∨ a = 0x0E ∨ a = 0x0F ∨ (0x10 ≤ a.toNat ∧ a.toNat ≤ 0x17) ∨ 0x80 ≤ a.toNat

/-- The register map's "block access" column: W (20_memory.md R57). -/
def mapWrites (a : Byte) : Prop :=
  a.toNat ≤ 0x03 ∨ a = 0x05 ∨ (0x08 ≤ a.toNat ∧ a.toNat ≤ 0x0D)

/-- The transactions of a fully successful command, in order (70_reset_and_hazards.md R270 for the counts; the addresses of
20_memory.md R57 in the order of each command's rule). -/
def planned : Instr → List (TransferKind × Byte)
  | .decodePixel _ _ => []
  | .decodeThermistor _ _ => []
  | .encodeThreshold _ => []
  | .pixelRegisterPair _ _ => []
  | .setMode _ => [(.write, 0x00)]
  | .getStatus => [(.read, 0x04)]
  | .clearFlags _ _ _ => [(.write, 0x05)]
  | .resetFlags => [(.write, 0x01)]
  | .resetFlagsAndSettings => [(.write, 0x01)]
  | .enableInterrupt _ _ => [(.write, 0x03)]
  | .setInterruptThresholds _ _ _ =>
    [(.write, 0x08), (.write, 0x09), (.write, 0x0A), (.write, 0x0B), (.write, 0x0C), (.write, 0x0D)]
  | .setFpsMode _ => [(.write, 0x02)]
  | .getFps => [(.read, 0x02)]
  | .updateInterruptTable => (List.range 8).map fun r => (.read, BitVec.ofNat 8 (0x10 + r))
  | .updatePixelTemperatureMatrix => (List.range 128).map fun j => (.read, BitVec.ofNat 8 (0x80 + j))
  | .updateThermistorTemperature => [(.read, 0x0E), (.read, 0x0F)]
  | .getPixelTemperatureMatrix => []
  | .getPixelTemperature _ _ => []
  | .getThermistorTemperature => []
  | .getInterruptTable => []

/-! ## Ends of a command, as the rules describe them -/

/-- A command has ended with this response and changed nothing else of `s` (10_state.md R30, R31). -/
def ended (s : State) (r : Response) : State := { s with resp := some r, busy := .idle }

/-- A read of `a` has returned `b` (20_memory.md R59). -/
def readDone (s : State) (a b : Byte) : State :=
  { s with trace := s.trace ++ [.readOk s.devAddr a b], oracle := s.oracle.after (.read s.devAddr a) (.ok b) }

/-- A read of `a` has failed. -/
def readFailed (s : State) (a : Byte) : State :=
  { s with trace := s.trace ++ [.readFault s.devAddr a], oracle := s.oracle.after (.read s.devAddr a) .fault }

/-- The write of `v` to `a` has succeeded. -/
def writeDone (s : State) (a v : Byte) : State :=
  { s with trace := s.trace ++ [.writeOk s.devAddr a v], oracle := s.oracle.after (.write s.devAddr a v) (.ok v) }

/-- The write of `v` to `a` has failed. -/
def writeFailed (s : State) (a v : Byte) : State :=
  { s with trace := s.trace ++ [.writeFault s.devAddr a v], oracle := s.oracle.after (.write s.devAddr a v) .fault }

/-- The bus answers a read of `a`, issued now, with `b`. -/
def answersRead (s : State) (a b : Byte) : Prop := busAnswer s (.read s.devAddr a) = .ok b

/-- The bus fails a read of `a`, issued now. -/
def failsRead (s : State) (a : Byte) : Prop := busAnswer s (.read s.devAddr a) = .fault

/-- The bus fails the write of `v` to `a`, issued now. -/
def failsWrite (s : State) (a v : Byte) : Prop := busAnswer s (.write s.devAddr a v) = .fault

/-- The bus answers the next reads, one after another, with these bytes: a condition on the state alone, for every oracle. -/
def servesReads : List (Byte × Byte) → State → Prop
  | [], _ => True
  | (a, b) :: rest, s => answersRead s a b ∧ servesReads rest (readDone s a b)

/-- The state after those reads. -/
def afterReads : List (Byte × Byte) → State → State
  | [], s => s
  | (a, b) :: rest, s => afterReads rest (readDone s a b)

/-- The bus lets the next writes, one after another, succeed. -/
def servesWrites : List (Byte × Byte) → State → Prop
  | [], _ => True
  | (a, v) :: rest, s => ¬ failsWrite s a v ∧ servesWrites rest (writeDone s a v)

/-- The state after those writes. -/
def afterWrites : List (Byte × Byte) → State → State
  | [], s => s
  | (a, v) :: rest, s => afterWrites rest (writeDone s a v)

/-- Every reading of a pixel pair, from a low and a high byte for each cell: addresses 0x80, 0x81, ..., 0xFF (42_update.md R191). -/
def pixelReads (lo hi : Fin 64 → Byte) : List (Byte × Byte) :=
  (List.finRange 64).flatMap fun i =>
    [(BitVec.ofNat 8 (0x80 + 2 * i.val), lo i), (BitVec.ofNat 8 (0x81 + 2 * i.val), hi i)]

/-- The row readings 0x10, ..., 0x17 (42_update.md R190). -/
def rowReads (rows : Fin 8 → Byte) : List (Byte × Byte) :=
  (List.finRange 8).map fun r => (BitVec.ofNat 8 (0x10 + r.val), rows r)

/-! ## The word of a command -/

/-- The "well-formed when" column of 30_encoding.md R92, and "must be 0" for an unused field (R95). -/
def FieldWellFormed (k : OperandKind) (f : Field) : Prop :=
  match k with
  | .byte => f.toNat < 256
  | .bool => f.toNat < 2
  | .idx => True
  | .code => True
  | .centi => True
  | .unused => f.toNat = 0

/-- The command's word is `(OP << 56) | (zext_64(A) << 40) | (zext_64(B) << 24) | (zext_64(C) << 8)` (30_encoding.md R91), with the
opcode and operand fields of its own rule and R95. -/
def Spells (i : Instr) (op : Byte) (a b c : Field) : Prop :=
  (encode i).toNat = op.toNat * 2 ^ 56 + a.toNat * 2 ^ 40 + b.toNat * 2 ^ 24 + c.toNat * 2 ^ 8

/-- A bool operand's field: 0 = false, 1 = true (30_encoding.md R92). -/
def boolOf (b : Bool) : Field := if b then 1 else 0

/-! ## The codec formulas as plain arithmetic -/

/-- The pixel of a pair: the 12-bit union u = msb[3:0] : lsb, minus 4096 if its bit 11 is set (40_codec.md R122). -/
def pixelOf (lsb msb : Byte) : Int :=
  let u : Nat := 256 * (msb.toNat % 16) + lsb.toNat
  if u < 2048 then (u : Int) else (u : Int) - 4096

/-- The magnitude (|t| + 12) div 25 (40_codec.md R127). -/
def thresholdMagnitude (t : Int) : Nat := (t.natAbs + 12) / 25

/-- The 12-bit field: m mod 4096, or (4096 - (m mod 4096)) mod 4096 for a negative t (40_codec.md R127). -/
def thresholdField (t : Int) : Nat :=
  if 0 ≤ t then thresholdMagnitude t % 4096 else (4096 - thresholdMagnitude t % 4096) % 4096

/-- Bits 7..0 of the field (40_codec.md R127). -/
def thresholdLow (t : Int) : Byte := BitVec.ofNat 8 (thresholdField t % 256)

/-- Bits 11..8 of the field in the low nibble (40_codec.md R127). -/
def thresholdHigh (t : Int) : Byte := BitVec.ofNat 8 (thresholdField t / 256)

/-- The six writes of SET_THRESHOLDS in order (41_control.md R158, 20_memory.md R75). -/
def sixWrites (low high hysteresis : Int) : List (Byte × Byte) :=
  [ (0x08, thresholdLow high), (0x09, thresholdHigh high), (0x0A, thresholdLow low), (0x0B, thresholdHigh low)
  , (0x0C, thresholdLow hysteresis), (0x0D, thresholdHigh hysteresis) ]

/-! ## The text of a command -/

/-- The mnemonic of 30_encoding.md R95. -/
def asmMnemonic : Instr → List Char
  | .decodePixel _ _ => "decode_pixel".toList
  | .decodeThermistor _ _ => "decode_thermistor".toList
  | .encodeThreshold _ => "encode_threshold".toList
  | .pixelRegisterPair _ _ => "pixel_register_pair".toList
  | .setMode _ => "set_mode".toList
  | .getStatus => "get_status".toList
  | .clearFlags _ _ _ => "clear_flags".toList
  | .resetFlags => "reset_flags".toList
  | .resetFlagsAndSettings => "reset_flags_and_settings".toList
  | .enableInterrupt _ _ => "enable_interrupt".toList
  | .setInterruptThresholds _ _ _ => "set_interrupt_thresholds".toList
  | .setFpsMode _ => "set_fps_mode".toList
  | .getFps => "get_fps".toList
  | .updateInterruptTable => "update_interrupt_table".toList
  | .updatePixelTemperatureMatrix => "update_pixel_temperature_matrix".toList
  | .updateThermistorTemperature => "update_thermistor_temperature".toList
  | .getPixelTemperatureMatrix => "get_pixel_temperature_matrix".toList
  | .getPixelTemperature _ _ => "get_pixel_temperature".toList
  | .getThermistorTemperature => "get_thermistor_temperature".toList
  | .getInterruptTable => "get_interrupt_table".toList

/-- The operands in A, B, C order, each with its kind (30_encoding.md R95) and the value that is written for it: a centi operand as a
signed number of hundredths, every other one as the unsigned value of its field (R92, R99). -/
def asmOperands : Instr → List (AsmKind × Int)
  | .decodePixel lsb msb => [(.byte, lsb.toNat), (.byte, msb.toNat)]
  | .decodeThermistor lsb msb => [(.byte, lsb.toNat), (.byte, msb.toNat)]
  | .encodeThreshold t => [(.centi, t.toInt)]
  | .pixelRegisterPair row col => [(.idx, row.toNat), (.idx, col.toNat)]
  | .setMode mode => [(.modeCode, mode.toNat)]
  | .getStatus => []
  | .clearFlags interrupt pixel therm => [(.bool, interrupt.toNat), (.bool, pixel.toNat), (.bool, therm.toNat)]
  | .resetFlags => []
  | .resetFlagsAndSettings => []
  | .enableInterrupt enabled mode => [(.bool, enabled.toNat), (.interruptCode, mode.toNat)]
  | .setInterruptThresholds low high hysteresis => [(.centi, low.toInt), (.centi, high.toInt), (.centi, hysteresis.toInt)]
  | .setFpsMode mode => [(.fpsCode, mode.toNat)]
  | .getFps => []
  | .updateInterruptTable => []
  | .updatePixelTemperatureMatrix => []
  | .updateThermistorTemperature => []
  | .getPixelTemperatureMatrix => []
  | .getPixelTemperature x y => [(.idx, x.toNat), (.idx, y.toNat)]
  | .getThermistorTemperature => []
  | .getInterruptTable => []

/-- The operand counts the assembler takes: the command's own, and the shorter ones of the pseudo-instructions (30_encoding.md R99,
R100). -/
def TakesOperandCount (i : Instr) (n : Nat) : Prop :=
  n = (asmOperands i).length ∨
    match i with
    | .clearFlags _ _ _ => n = 0
    | .enableInterrupt _ _ => n = 0 ∨ n = 1
    | .setInterruptThresholds _ _ _ => n = 2
    | _ => False

/-- The range of an operand kind (30_encoding.md R99): 0..255, {0, 1}, 0..65535, -32768..32767. -/
def InOperandRange (k : AsmKind) (n : Int) : Prop :=
  match k with
  | .byte => 0 ≤ n ∧ n < 2 ^ 8
  | .bool => n = 0 ∨ n = 1
  | .idx => 0 ≤ n ∧ n < 2 ^ 16
  | .modeCode => 0 ≤ n ∧ n < 2 ^ 16
  | .interruptCode => 0 ≤ n ∧ n < 2 ^ 16
  | .fpsCode => 0 ≤ n ∧ n < 2 ^ 16
  | .centi => -2 ^ 15 ≤ n ∧ n < 2 ^ 15

/-- The symbols of an operand kind with their values (30_encoding.md R99). -/
def operandSymbols (codes : ModeCodes) : AsmKind → List (List Char × Int)
  | .byte => []
  | .bool => [("true".toList, 1), ("false".toList, 0)]
  | .idx => []
  | .modeCode =>
    [ ("normal".toList, codes.normal.toNat), ("sleep".toList, codes.sleep.toNat)
    , ("standby60".toList, codes.standBy60.toNat), ("standby10".toList, codes.standBy10.toNat) ]
  | .interruptCode => [("difference".toList, 0), ("absolute".toList, 1)]
  | .fpsCode => [("fps10".toList, 0), ("fps1".toList, 1)]
  | .centi => []

/-- The digit of value `d`; a letter in either case (log 16). -/
def IsDigit (base : Nat) (c : Char) (d : Nat) : Prop :=
  d < base ∧ ("0123456789abcdef".toList[d]? = some c ∨ "0123456789ABCDEF".toList[d]? = some c)

/-- One digit or more, the most significant first, standing for `n` in the base. -/
def IsNumeral (base : Nat) (t : List Char) (n : Nat) : Prop :=
  t ≠ [] ∧ ∃ digits, List.Forall₂ (IsDigit base) t digits ∧ n = Nat.ofDigits base digits.reverse

/-- "Integer operands are decimal (optionally signed) or `0x` hexadecimal" (30_encoding.md R99; the signs are those of log 16). -/
def WritesInteger (t : List Char) (n : Int) : Prop :=
  ∃ (digits : List Char) (m : Nat),
    (IsNumeral 10 digits m ∧ ((t = digits ∧ n = m) ∨ (t = '+' :: digits ∧ n = m) ∨ (t = '-' :: digits ∧ n = -m))) ∨
    (IsNumeral 16 digits m ∧ t = '0' :: 'x' :: digits ∧ n = m)

/-- The text writes this value of an operand of this kind: as an integer or as one of its symbols (30_encoding.md R99). -/
def WritesOperand (codes : ModeCodes) (k : AsmKind) (t : List Char) (n : Int) : Prop :=
  WritesInteger t n ∨ (t, n) ∈ operandSymbols codes k

/-- A text that can stand between commas as one operand: not empty, with no comma and no space in it. -/
def OperandWord (t : List Char) : Prop := t ≠ [] ∧ ∀ c ∈ t, c ≠ ' ' ∧ c ≠ ','

/-- Texts separated by commas. -/
def commaSeparated : List (List Char) → List Char
  | [] => []
  | [t] => t
  | t :: u :: rest => t ++ ',' :: ' ' :: commaSeparated (u :: rest)

/-- "A command is written `mnemonic` followed by its operands separated by commas" (30_encoding.md R99). -/
def written (mnemonic : List Char) (operands : List (List Char)) : List Char :=
  match operands with
  | [] => mnemonic
  | t :: rest => mnemonic ++ ' ' :: commaSeparated (t :: rest)

end Sys2Proof.Machine
end

