-- ==== Sys2Proof/Certificates/Slice0/Obligations.lean ====
section
/-! DEFINITION. The statements for the provers. Each quantifies over every state, so over every bus oracle (20_memory.md R61), and
writes out the whole next state, so that what stands unchanged is said with it. The words it uses beside the machine's are those of
Safety.lean. -/

open Sys2Proof Sys2Proof.Machine

/-! ## Encoding -/

/-- Eight command words, written out from the fields of 30_encoding.md R90 and the opcodes of R95, decode to the commands they
spell. -/
def Obligations.SpecWordsDecode : Prop :=
  decode 0x0100FF000F000000 = .ok (.decodePixel 0xFF 0x0F) ∧
  decode 0x03FC180000000000 = .ok (.encodeThreshold (BitVec.ofInt 16 (-1000))) ∧
  decode 0x1000210000000000 = .ok (.setMode 0x21) ∧
  decode 0x1200010000000100 = .ok (.clearFlags true false true) ∧
  decode 0x1500000001000000 = .ok (.enableInterrupt false 1) ∧
  decode 0x16F83107CF000000 = .ok (.setInterruptThresholds (BitVec.ofInt 16 (-1999)) 1999 0) ∧
  decode 0x2100000000000000 = .ok .updatePixelTemperatureMatrix ∧
  decode 0x3100070006000000 = .ok (.getPixelTemperature 7 6)

/-- Decoding what the encoder wrote gives the command back, for every command and every operand. -/
def Obligations.DecodeOfEncode : Prop :=
  ∀ i : Instr, decode (encode i) = .ok i

/-- Encoding what the decoder read gives the word back: every accepted word is the one spelling of its command. -/
def Obligations.EncodeOfDecode : Prop :=
  ∀ (w : Word) (i : Instr), decode w = .ok i → encode i = w

/-- 30_encoding.md R96: a word is well-formed (opcode, Z, unused, byte and bool fields) exactly when one row of the opcode table
covers it, and exactly then it decodes to a command; a word that is not well-formed is answered with IllegalCommand, with no
transaction and no field of the state record changed but S.resp. That it leaves the port and the index advances by 1 are 10_state.md R30 and R21 in the model's form
of them (log 2 and log 3, DESIGN CHOICE), not R96. -/
def Obligations.WordIsLegalExactlyWhenOneRowCoversIt : Prop :=
  (∀ w : Word,
    ((Command.ofWord w).wellFormed = true ↔
      ∃ f, formatOf (Command.ofWord w).op = some f ∧ w.toNat % 256 = 0 ∧
        FieldWellFormed f.a (Command.ofWord w).a ∧ FieldWellFormed f.b (Command.ofWord w).b ∧
        FieldWellFormed f.c (Command.ofWord w).c) ∧
    ((Command.ofWord w).wellFormed = true ↔ ∃! r, r ∈ opcodeTable ∧ r.covers w = true) ∧
    ((Command.ofWord w).wellFormed = true ↔ ∃ i, decode w = .ok i)) ∧
  ∀ (s : State) (w : Word) (rest : List Word), s.busy = .idle → s.port = w :: rest →
    (Command.ofWord w).wellFormed = false →
    step s = .next { ended s ⟨.illegalCommand, .none⟩ with port := rest, pos := s.pos + 1 }

/-- 30_encoding.md R97: any word carrying one of the 236 reserved OP values is refused with IllegalCommand, so the all-zero word
too. That it leaves the port and the index advances by 1 are 10_state.md R30 and R21 in the model's form of them (log 2 and log 3,
DESIGN CHOICE), not R97. -/
def Obligations.ReservedOpcodesAreIllegal : Prop :=
  ∀ (s : State) (w : Word) (rest : List Word), s.busy = .idle → s.port = w :: rest →
    (let op := w.toNat / 2 ^ 56
     op = 0 ∨ (0x05 ≤ op ∧ op ≤ 0x0F) ∨ (0x19 ≤ op ∧ op ≤ 0x1F) ∨ (0x23 ≤ op ∧ op ≤ 0x2F) ∨ 0x34 ≤ op) →
    step s = .next { ended s ⟨.illegalCommand, .none⟩ with port := rest, pos := s.pos + 1 }

/-! ## Steps -/

/-- A step runs the decoded command: it takes the word from the port, becomes Busy, counts it, and is the command's meaning at that
state. -/
def Obligations.StepRunsTheDecodedCommand : Prop :=
  ∀ (s : State) (w : Word) (rest : List Word) (i : Instr), s.busy = .idle → s.port = w :: rest → decode w = .ok i →
    step s = exec i { s with port := rest, busy := .busy, pos := s.pos + 1 }

/-- A command issued by the host runs at the very next step (the model's port: log 2). -/
def Obligations.IssuedCommandRunsNext : Prop :=
  ∀ (s : State) (i : Instr),
    step (s.withFetchWord 64 (encode i).toNat) = exec i { s with busy := .busy, pos := s.pos + 1 }

/-- 10_state.md R21: whatever word is taken and however its command ends, the index advances by exactly 1, the block is Idle again,
there is a response, and the rest of the port is untouched. -/
def Obligations.EveryCommandAdvancesTheIndexByOne : Prop :=
  ∀ (s : State) (w : Word) (rest : List Word), s.busy = .idle → s.port = w :: rest →
    ∃ t r, step s = .next t ∧ t.pos = s.pos + 1 ∧ t.port = rest ∧ t.busy = .idle ∧ t.resp = some r

/-- While Busy the port takes nothing and the waiting commands stay (10_state.md R30); with no command waiting the block waits
(70_reset_and_hazards.md R260). That a waiting step leaves the state as it is, is the model's choice (log 2). -/
def Obligations.BlockWaitsWithoutACommandToTake : Prop :=
  ∀ s : State, s.busy = .busy ∨ s.port = [] → step s = .next s

/-! ## Reset and the invariant -/

/-- 70_reset_and_hazards.md R260: construction sets every field of the state record to its reset value, for every DEVICE_ADDR, and
the block then has no command to take. -/
def Obligations.ConstructionSetsTheResetValues : Prop :=
  ∀ (addr : DevAddr) (codes : ModeCodes),
    let s := State.construct addr codes
    s.devAddr = addr ∧ s.mode = .unknown ∧ s.fps = .unknown ∧ (∀ i : Fin 64, s.pix[i.val] = none) ∧ s.therm = none ∧
      s.itab = none ∧ s.busy = .idle ∧ s.resp = none ∧ fetch s = none

/-- The invariant holds after construction with an injective MODE_CODE, and after reset. -/
def Obligations.ResetSatisfiesTheInvariant : Prop :=
  (∀ (addr : DevAddr) (codes : ModeCodes), codes.Injective → (State.construct addr codes).Inv) ∧ State.reset.Inv

/-- Every step keeps the invariant: Idle between commands, MODE_CODE injective, every cached pixel within -2048..2047, the last
response well-formed for its status, RD's byte array in canonical form. -/
def Obligations.EveryStepKeepsTheInvariant : Prop :=
  ∀ s t : State, s.Inv → step s = .next t → t.Inv

/-! ## Codec commands -/

/-- 40_codec.md R121, R122: DECODE_PIXEL answers u - 4096 * u[11] for the 12-bit union u, between -2048 and 2047, the same for two
pairs exactly when their low bytes and msb[3:0] agree, and changes nothing but the response. -/
def Obligations.DecodePixelAnswersTheSignedField : Prop :=
  (∀ (s : State) (lsb msb : Byte),
    Spells (.decodePixel lsb msb) 0x01 (lsb.setWidth 16) (msb.setWidth 16) 0 ∧
    exec (.decodePixel lsb msb) s = .next (ended s ⟨.ok, .pixel (pixelOf lsb msb)⟩) ∧
      -2048 ≤ pixelOf lsb msb ∧ pixelOf lsb msb ≤ 2047) ∧
  ∀ (s : State) (l m l' m' : Byte),
    exec (.decodePixel l m) s = exec (.decodePixel l' m') s ↔ l = l' ∧ m.toNat % 16 = m'.toNat % 16

/-- 40_codec.md R123, R124: DECODE_THERM answers neg = msb[3], ip = msb[2:0] : lsb[7:4], fn = lsb[3:0], and the triple is the same
for two pairs exactly when msb[3:0] : lsb is. -/
def Obligations.DecodeThermAnswersTheTriple : Prop :=
  (∀ (s : State) (lsb msb : Byte), ∃ v : ThermValue,
    Spells (.decodeThermistor lsb msb) 0x02 (lsb.setWidth 16) (msb.setWidth 16) 0 ∧
    exec (.decodeThermistor lsb msb) s = .next (ended s ⟨.ok, .therm v⟩) ∧
      (v.neg = true ↔ 8 ≤ msb.toNat % 16) ∧ v.ip.toNat = 16 * (msb.toNat % 8) + lsb.toNat / 16 ∧
      v.fn.toNat = lsb.toNat % 16) ∧
  ∀ (s : State) (l m l' m' : Byte),
    exec (.decodeThermistor l m) s = exec (.decodeThermistor l' m') s ↔ l = l' ∧ m.toNat % 16 = m'.toNat % 16

/-- 40_codec.md R125: the temperature of a triple is sign * (ip + frac) with frac 0 or 1/fn; it lies in [-128, 128]; the map is not
injective ((0, 25, 1) and (0, 26, 0), (1, 0, 0) and (0, 0, 0)). -/
def Obligations.ThermCelsiusIsTheReciprocalFormula : Prop :=
  (∀ (ip : BitVec 7) (fn : BitVec 4),
    thermCelsius ⟨false, ip, fn⟩ = ip.toNat + (if fn.toNat = 0 then 0 else 1 / (fn.toNat : Rat)) ∧
    thermCelsius ⟨true, ip, fn⟩ = -thermCelsius ⟨false, ip, fn⟩) ∧
  (∀ v : ThermValue, -128 ≤ thermCelsius v ∧ thermCelsius v ≤ 128) ∧
  thermCelsius ⟨false, 25, 1⟩ = thermCelsius ⟨false, 26, 0⟩ ∧ thermCelsius ⟨true, 0, 0⟩ = thermCelsius ⟨false, 0, 0⟩

/-- 40_codec.md R126, R127: ENCODE_THRESHOLD answers the two bytes of the 12-bit two's-complement field of m = (|t| + 12) div 25,
with no range check, for every 16-bit operand. -/
def Obligations.EncodeThresholdAnswersTheField : Prop :=
  ∀ (s : State) (t : Field),
    Spells (.encodeThreshold t) 0x03 t 0 0 ∧
    exec (.encodeThreshold t) s = .next (ended s ⟨.ok, .bytes2 (thresholdLow t.toInt) (thresholdHigh t.toInt)⟩) ∧
      (thresholdHigh t.toInt).toNat < 16

/-- The round trip the spec derives in 40_codec.md R127: what ENCODE_THRESHOLD answers, DECODE_PIXEL reads back as m for t >= 0 and
-m for t < 0, within half a quarter degree of t/100 °C; and m is at most 1311. -/
def Obligations.ThresholdRoundTripsThroughThePixelDecoder : Prop :=
  ∀ (s : State) (t : Field) (b0 b1 : Byte),
    exec (.encodeThreshold t) s = .next (ended s ⟨.ok, .bytes2 b0 b1⟩) →
    thresholdMagnitude t.toInt ≤ 1311 ∧
    ∃ q : Int, exec (.decodePixel b0 b1) s = .next (ended s ⟨.ok, .pixel q⟩) ∧
      q = (if 0 ≤ t.toInt then (thresholdMagnitude t.toInt : Int) else -(thresholdMagnitude t.toInt : Int)) ∧
      2 * (25 * q - t.toInt).natAbs ≤ 25

/-- PIXEL_PAIR (40_codec.md section 5) answers 0x80 + 2*(8*row + col) and the next address for row and col in [0, 7], and
IndexOutOfRange outside. "addr_msb = addr_lsb + 1 follows from the little-endian pair layout" is the spec's own inference. -/
def Obligations.PixelPairAnswersTheRegisterPair : Prop :=
  ∀ (s : State) (row col : Field),
    Spells (.pixelRegisterPair row col) 0x04 row col 0 ∧
    (row.toNat ≤ 7 → col.toNat ≤ 7 →
      exec (.pixelRegisterPair row col) s = .next (ended s ⟨.ok, .addr2
        (BitVec.ofNat 8 (0x80 + 2 * (8 * row.toNat + col.toNat))) (BitVec.ofNat 8 (0x81 + 2 * (8 * row.toNat + col.toNat)))⟩)) ∧
    (7 < row.toNat ∨ 7 < col.toNat →
      exec (.pixelRegisterPair row col) s = .next (ended s ⟨.indexOutOfRange, .none⟩))

/-- Every address from 0x80 up is one byte of exactly one pixel's pair, an even address its low byte and an odd one its high byte
(20_memory.md sections 2 and 3; the spec derives the alignment). -/
def Obligations.PixelPairsTileTheUpperRegisters : Prop :=
  ∀ a : Byte, 0x80 ≤ a.toNat →
    ∃! p : Fin 8 × Fin 8,
      (a.toNat % 2 = 0 ∧ (pixelRegisterPairFn p.1.val p.2.val).1 = a) ∨
      (a.toNat % 2 = 1 ∧ (pixelRegisterPairFn p.1.val p.2.val).2 = a)

/-! ## Control commands -/

/-- 41_control.md R152, SET_MODE: an unrecognised code, a sleeping block and a target other than Normal, a failed write, a write
that succeeds; S.mode changes in the last case only. -/
def Obligations.SetModeFollowsItsRule : Prop :=
  ∀ (s : State) (code : Field), s.modeCodes.Injective →
    Spells (.setMode code) 0x10 code 0 0 ∧
    ((∀ m, code ≠ (s.modeCodes.code m).setWidth 16) →
      exec (.setMode code) s = .next (ended s ⟨.invalidArgument, .none⟩)) ∧
    ∀ m, code = (s.modeCodes.code m).setWidth 16 →
      (s.mode = .known .sleep → m ≠ .normal → exec (.setMode code) s = .next (ended s ⟨.deviceAsleep, .none⟩)) ∧
      (s.mode ≠ .known .sleep ∨ m = .normal →
        (failsWrite s 0x00 (s.modeCodes.code m) →
          exec (.setMode code) s =
            .next (ended (writeFailed s 0x00 (s.modeCodes.code m)) ⟨.busError, .buserr 0x00 .write⟩)) ∧
        (¬ failsWrite s 0x00 (s.modeCodes.code m) →
          exec (.setMode code) s =
            .next { ended (writeDone s 0x00 (s.modeCodes.code m)) ⟨.ok, .none⟩ with mode := .known m }))

/-- 41_control.md R153, GET_STATUS: the three flags are bits 3, 2 and 1 of the status byte read now; nothing is cached. -/
def Obligations.GetStatusReadsTheFlagsFresh : Prop :=
  ∀ s : State,
    Spells .getStatus 0x11 0 0 0 ∧
    (s.mode = .known .sleep → exec .getStatus s = .next (ended s ⟨.deviceAsleep, .none⟩)) ∧
    (s.mode ≠ .known .sleep →
      (failsRead s 0x04 → exec .getStatus s = .next (ended (readFailed s 0x04) ⟨.busError, .buserr 0x04 .read⟩)) ∧
      ∀ b, answersRead s 0x04 b →
        exec .getStatus s = .next (ended (readDone s 0x04 b)
          ⟨.ok, .status3 (decide (b.toNat / 8 % 2 = 1)) (decide (b.toNat / 4 % 2 = 1)) (decide (b.toNat / 2 % 2 = 1))⟩))

/-- 41_control.md R154, CLEAR_FLAGS: writes therm<<3 | pixel<<2 | interrupt<<1 to 0x05. -/
def Obligations.ClearFlagsWritesTheFlagBits : Prop :=
  ∀ (s : State) (interrupt pixel therm : Bool),
    let v : Byte := BitVec.ofNat 8 (8 * therm.toNat + 4 * pixel.toNat + 2 * interrupt.toNat)
    Spells (.clearFlags interrupt pixel therm) 0x12 (boolOf interrupt) (boolOf pixel) (boolOf therm) ∧
    (s.mode = .known .sleep → exec (.clearFlags interrupt pixel therm) s = .next (ended s ⟨.deviceAsleep, .none⟩)) ∧
    (s.mode ≠ .known .sleep →
      (failsWrite s 0x05 v → exec (.clearFlags interrupt pixel therm) s =
        .next (ended (writeFailed s 0x05 v) ⟨.busError, .buserr 0x05 .write⟩)) ∧
      (¬ failsWrite s 0x05 v → exec (.clearFlags interrupt pixel therm) s =
        .next (ended (writeDone s 0x05 v) ⟨.ok, .none⟩)))

/-- 41_control.md R155, R156: RESET_FLAGS writes 0x30 and RESET_ALL writes 0x3F to 0x01, one write each; the caches, S.mode and
S.fps are unchanged. -/
def Obligations.ResetCommandsWriteTheResetRegister : Prop :=
  ∀ (s : State) (i : Instr) (op v : Byte),
    (i = .resetFlags ∧ op = 0x13 ∧ v = 0x30) ∨ (i = .resetFlagsAndSettings ∧ op = 0x14 ∧ v = 0x3F) →
    Spells i op 0 0 0 ∧
    (s.mode = .known .sleep → exec i s = .next (ended s ⟨.deviceAsleep, .none⟩)) ∧
    (s.mode ≠ .known .sleep →
      (failsWrite s 0x01 v → exec i s = .next (ended (writeFailed s 0x01 v) ⟨.busError, .buserr 0x01 .write⟩)) ∧
      (¬ failsWrite s 0x01 v → exec i s = .next (ended (writeDone s 0x01 v) ⟨.ok, .none⟩)))

/-- 41_control.md R157, ENABLE_INT: a mode above 1 is InvalidArgument; else mode<<1 | enabled is written to 0x03. -/
def Obligations.EnableInterruptWritesModeAndEnable : Prop :=
  ∀ (s : State) (enabled : Bool) (mode : Field),
    let v : Byte := BitVec.ofNat 8 (2 * mode.toNat + enabled.toNat)
    Spells (.enableInterrupt enabled mode) 0x15 (boolOf enabled) mode 0 ∧
    (1 < mode.toNat → exec (.enableInterrupt enabled mode) s = .next (ended s ⟨.invalidArgument, .none⟩)) ∧
    (mode.toNat ≤ 1 →
      (s.mode = .known .sleep → exec (.enableInterrupt enabled mode) s = .next (ended s ⟨.deviceAsleep, .none⟩)) ∧
      (s.mode ≠ .known .sleep →
        (failsWrite s 0x03 v → exec (.enableInterrupt enabled mode) s =
          .next (ended (writeFailed s 0x03 v) ⟨.busError, .buserr 0x03 .write⟩)) ∧
        (¬ failsWrite s 0x03 v → exec (.enableInterrupt enabled mode) s =
          .next (ended (writeDone s 0x03 v) ⟨.ok, .none⟩))))

/-- 41_control.md R158, R159, SET_THRESHOLDS: low and high must lie strictly between -2000 and 2000, hysteresis is unchecked; six
writes in order to 0x08..0x0D; a failed write keeps the writes before it and issues none after it. -/
def Obligations.SetThresholdsWritesSixBytes : Prop :=
  ∀ (s : State) (low high hyst : Field),
    let ok := (-2000 < low.toInt ∧ low.toInt < 2000) ∧ (-2000 < high.toInt ∧ high.toInt < 2000)
    let ws := sixWrites low.toInt high.toInt hyst.toInt
    Spells (.setInterruptThresholds low high hyst) 0x16 low high hyst ∧
    (¬ ok → exec (.setInterruptThresholds low high hyst) s = .next (ended s ⟨.invalidArgument, .none⟩)) ∧
    (ok →
      (s.mode = .known .sleep →
        exec (.setInterruptThresholds low high hyst) s = .next (ended s ⟨.deviceAsleep, .none⟩)) ∧
      (s.mode ≠ .known .sleep →
        (servesWrites ws s →
          exec (.setInterruptThresholds low high hyst) s = .next (ended (afterWrites ws s) ⟨.ok, .none⟩)) ∧
        ∀ (n : Nat) (a v : Byte), ws[n]? = some (a, v) → servesWrites (ws.take n) s →
          failsWrite (afterWrites (ws.take n) s) a v →
          exec (.setInterruptThresholds low high hyst) s =
            .next (ended (writeFailed (afterWrites (ws.take n) s) a v) ⟨.busError, .buserr a .write⟩)))

/-- 41_control.md R160, SET_FPS: a code above 1 is InvalidArgument; else the code is written to 0x02, and S.fps changes only once
the write has succeeded. -/
def Obligations.SetFpsWritesTheFrameRate : Prop :=
  ∀ (s : State) (code : Field) (f : FpsMode) (v : Byte), (f = .fps10 ∧ v = 0 ∨ f = .fps1 ∧ v = 1) →
    Spells (.setFpsMode code) 0x17 code 0 0 ∧
    (1 < code.toNat → exec (.setFpsMode code) s = .next (ended s ⟨.invalidArgument, .none⟩)) ∧
    (code = v.setWidth 16 →
      (s.mode = .known .sleep → exec (.setFpsMode code) s = .next (ended s ⟨.deviceAsleep, .none⟩)) ∧
      (s.mode ≠ .known .sleep →
        (failsWrite s 0x02 v → exec (.setFpsMode code) s =
          .next (ended (writeFailed s 0x02 v) ⟨.busError, .buserr 0x02 .write⟩)) ∧
        (¬ failsWrite s 0x02 v → exec (.setFpsMode code) s =
          .next { ended (writeDone s 0x02 v) ⟨.ok, .none⟩ with fps := .known f })))

/-- 41_control.md R161, GET_FPS: reads 0x02 and answers 1 for a non-zero byte, else 10; S.fps is neither read nor written. -/
def Obligations.GetFpsReadsTheDevice : Prop :=
  ∀ s : State,
    Spells .getFps 0x18 0 0 0 ∧
    (s.mode = .known .sleep → exec .getFps s = .next (ended s ⟨.deviceAsleep, .none⟩)) ∧
    (s.mode ≠ .known .sleep →
      (failsRead s 0x02 → exec .getFps s = .next (ended (readFailed s 0x02) ⟨.busError, .buserr 0x02 .read⟩)) ∧
      ∀ b, answersRead s 0x02 b →
        exec .getFps s = .next (ended (readDone s 0x02 b) ⟨.ok, .fps (if b.toNat = 0 then 10 else 1)⟩))

/-! ## Update commands -/

/-- 42_update.md R190, UPDATE_INT_TABLE: eight reads 0x10..0x17 in order; then the table is replaced as a whole, cell 8*r + c being
bit c of row r; a failed read keeps the previous table and issues no later read. -/
def Obligations.UpdateIntTableCommitsWholesale : Prop :=
  ∀ s : State,
    Spells .updateInterruptTable 0x20 0 0 0 ∧
    (s.mode = .known .sleep → exec .updateInterruptTable s = .next (ended s ⟨.deviceAsleep, .none⟩)) ∧
    (s.mode ≠ .known .sleep → ∀ rows : Fin 8 → Byte,
      (servesReads (rowReads rows) s →
        ∃ table : Vector Bool 64,
          exec .updateInterruptTable s =
            .next { ended (afterReads (rowReads rows) s) ⟨.ok, .none⟩ with itab := some table } ∧
          ∀ r c : Fin 8, table[8 * r.val + c.val] = (rows r).getLsbD c.val) ∧
      ∀ n : Nat, n < 8 → servesReads ((rowReads rows).take n) s →
        failsRead (afterReads ((rowReads rows).take n) s) (BitVec.ofNat 8 (0x10 + n)) →
        exec .updateInterruptTable s =
          .next (ended (readFailed (afterReads ((rowReads rows).take n) s) (BitVec.ofNat 8 (0x10 + n)))
            ⟨.busError, .buserr (BitVec.ofNat 8 (0x10 + n)) .read⟩))

/-- 42_update.md R191, UPDATE_PIXELS: 128 reads 0x80..0xFF in order, each cell committed once both its bytes are read; when the read
at 0x80 + n fails, the cells whose pairs were complete hold their new values, every other cell keeps its old one, and no further
read is issued. -/
def Obligations.UpdatePixelsCommitsCellByCell : Prop :=
  ∀ s : State,
    Spells .updatePixelTemperatureMatrix 0x21 0 0 0 ∧
    (s.mode = .known .sleep → exec .updatePixelTemperatureMatrix s = .next (ended s ⟨.deviceAsleep, .none⟩)) ∧
    (s.mode ≠ .known .sleep → ∀ lo hi : Fin 64 → Byte,
      (servesReads (pixelReads lo hi) s →
        exec .updatePixelTemperatureMatrix s =
          .next { ended (afterReads (pixelReads lo hi) s) ⟨.ok, .none⟩ with
            pix := Vector.ofFn fun i => some (pixelOf (lo i) (hi i)) }) ∧
      ∀ n : Nat, n < 128 → servesReads ((pixelReads lo hi).take n) s →
        failsRead (afterReads ((pixelReads lo hi).take n) s) (BitVec.ofNat 8 (0x80 + n)) →
        exec .updatePixelTemperatureMatrix s =
          .next { ended (readFailed (afterReads ((pixelReads lo hi).take n) s) (BitVec.ofNat 8 (0x80 + n)))
              ⟨.busError, .buserr (BitVec.ofNat 8 (0x80 + n)) .read⟩ with
            pix := Vector.ofFn fun i => if 2 * i.val + 1 < n then some (pixelOf (lo i) (hi i)) else s.pix[i.val] })

/-- 42_update.md R192, UPDATE_THERM: reads 0x0E, then 0x0F, and replaces S.therm once both have succeeded. -/
def Obligations.UpdateThermReplacesTheReading : Prop :=
  ∀ s : State,
    Spells .updateThermistorTemperature 0x22 0 0 0 ∧
    (s.mode = .known .sleep → exec .updateThermistorTemperature s = .next (ended s ⟨.deviceAsleep, .none⟩)) ∧
    (s.mode ≠ .known .sleep →
      (failsRead s 0x0E → exec .updateThermistorTemperature s =
        .next (ended (readFailed s 0x0E) ⟨.busError, .buserr 0x0E .read⟩)) ∧
      ∀ lsb, answersRead s 0x0E lsb →
        (failsRead (readDone s 0x0E lsb) 0x0F → exec .updateThermistorTemperature s =
          .next (ended (readFailed (readDone s 0x0E lsb) 0x0F) ⟨.busError, .buserr 0x0F .read⟩)) ∧
        ∀ msb, answersRead (readDone s 0x0E lsb) 0x0F msb → ∃ v : ThermValue,
          exec .updateThermistorTemperature s =
            .next { ended (readDone (readDone s 0x0E lsb) 0x0F msb) ⟨.ok, .none⟩ with therm := some v } ∧
          (v.neg = true ↔ 8 ≤ msb.toNat % 16) ∧ v.ip.toNat = 16 * (msb.toNat % 8) + lsb.toNat / 16 ∧
          v.fn.toNat = lsb.toNat % 16)

/-- The source's own test of the update (95_test_vectors.md S7): after a successful UPDATE_PIXELS, GET_PIXEL answers the decoding
of the two bytes that were read for that pixel. -/
def Obligations.GetPixelAnswersWhatTheUpdateRead : Prop :=
  ∀ (s t : State) (lo hi : Fin 64 → Byte) (row col : Fin 8), s.mode ≠ .known .sleep → servesReads (pixelReads lo hi) s →
    exec .updatePixelTemperatureMatrix s = .next t →
    exec (.getPixelTemperature (BitVec.ofNat 16 row.val) (BitVec.ofNat 16 col.val)) t =
      .next (ended t ⟨.ok, .pixel (pixelOf (lo ⟨8 * row.val + col.val, by omega⟩) (hi ⟨8 * row.val + col.val, by omega⟩))⟩)

/-! ## Accessors -/

/-- 43_accessors.md R211, GET_MATRIX: the 64 cached cells, or NotYetRead when any is Unset. -/
def Obligations.GetMatrixAnswersTheCache : Prop :=
  ∀ s : State,
    Spells .getPixelTemperatureMatrix 0x30 0 0 0 ∧
    (∀ cells : Vector Int 64, (∀ i : Fin 64, s.pix[i.val] = some cells[i.val]) →
      exec .getPixelTemperatureMatrix s = .next (ended s ⟨.ok, .matrix cells⟩)) ∧
    ((∃ i : Fin 64, s.pix[i.val] = none) →
      exec .getPixelTemperatureMatrix s = .next (ended s ⟨.notYetRead, .none⟩))

/-- 43_accessors.md R212, GET_PIXEL: IndexOutOfRange first, then NotYetRead, else cell 8*x + y. -/
def Obligations.GetPixelAnswersOneCell : Prop :=
  ∀ (s : State) (x y : Field),
    Spells (.getPixelTemperature x y) 0x31 x y 0 ∧
    (7 < x.toNat ∨ 7 < y.toNat → exec (.getPixelTemperature x y) s = .next (ended s ⟨.indexOutOfRange, .none⟩)) ∧
    ∀ row col : Fin 8, x.toNat = row.val → y.toNat = col.val →
      (s.pix[8 * row.val + col.val] = none →
        exec (.getPixelTemperature x y) s = .next (ended s ⟨.notYetRead, .none⟩)) ∧
      ∀ q, s.pix[8 * row.val + col.val] = some q →
        exec (.getPixelTemperature x y) s = .next (ended s ⟨.ok, .pixel q⟩)

/-- 43_accessors.md R213, R214: GET_THERM and GET_INT_TABLE answer the cached entry, or NotYetRead. -/
def Obligations.GetThermAndTableAnswerTheCache : Prop :=
  ∀ s : State,
    Spells .getThermistorTemperature 0x32 0 0 0 ∧ Spells .getInterruptTable 0x33 0 0 0 ∧
    (s.therm = none → exec .getThermistorTemperature s = .next (ended s ⟨.notYetRead, .none⟩)) ∧
    (∀ v, s.therm = some v → exec .getThermistorTemperature s = .next (ended s ⟨.ok, .therm v⟩)) ∧
    (s.itab = none → exec .getInterruptTable s = .next (ended s ⟨.notYetRead, .none⟩)) ∧
    (∀ table, s.itab = some table → exec .getInterruptTable s = .next (ended s ⟨.ok, .table table⟩))

/-! ## Rules over all commands -/

/-- 40_codec.md R120 and 43_accessors.md R210: a codec command or an accessor issues no transaction and changes nothing but the
response, in every mode; a codec command's response depends on its operands alone. -/
def Obligations.CodecAndAccessorsOnlyRespond : Prop :=
  ∀ i : Instr,
    ((isCodec i || isAccessor i) = true → ∀ s, ∃ r, exec i s = .next (ended s r) ∧ r.status ≠ .deviceAsleep) ∧
    (isCodec i = true → ∃ r, ∀ s, exec i s = .next (ended s r))

/-- 60_exceptions.md R231, R232: InvalidArgument is answered exactly by a bus command whose argument check fails, IndexOutOfRange
exactly by PIXEL_PAIR and GET_PIXEL with an index above 7, in every mode and whatever the bus would do; both change nothing but the
response. -/
def Obligations.ArgumentErrorsComeBeforeAnythingElse : Prop :=
  ∀ (s t : State) (i : Instr), exec i s = .next t →
    (t.resp = some ⟨.invalidArgument, .none⟩ ↔ isBusCommand i = true ∧ ¬ argumentsValid s.modeCodes i) ∧
    (t.resp = some ⟨.indexOutOfRange, .none⟩ ↔ isBusCommand i = false ∧ ¬ argumentsValid s.modeCodes i) ∧
    (¬ argumentsValid s.modeCodes i → ∃ r, t = ended s r)

/-- 41_control.md R151, 60_exceptions.md R235: DeviceAsleep is answered exactly by a bus command with valid arguments while S.mode =
Sleep, other than SET_MODE to Normal, and then nothing but the response changes. -/
def Obligations.DeviceAsleepExactlyUnderTheGuard : Prop :=
  ∀ (s t : State) (i : Instr), exec i s = .next t →
    (t.resp = some ⟨.deviceAsleep, .none⟩ ↔
      isBusCommand i = true ∧ argumentsValid s.modeCodes i ∧ s.mode = .known .sleep ∧ ¬ isWake s.modeCodes i) ∧
    (t.resp = some ⟨.deviceAsleep, .none⟩ → t = ended s ⟨.deviceAsleep, .none⟩)

/-- 60_exceptions.md R236: NotYetRead is answered exactly by an accessor whose result would include an Unset entry. -/
def Obligations.NotYetReadExactlyForUnsetEntries : Prop :=
  ∀ (s t : State) (i : Instr), exec i s = .next t →
    (t.resp = some ⟨.notYetRead, .none⟩ ↔
      (i = .getPixelTemperatureMatrix ∧ ∃ j : Fin 64, s.pix[j.val] = none) ∨
      (∃ (x y : Field) (row col : Fin 8), i = .getPixelTemperature x y ∧ x.toNat = row.val ∧ y.toNat = col.val ∧
        s.pix[8 * row.val + col.val] = none) ∨
      (i = .getThermistorTemperature ∧ s.therm = none) ∨ (i = .getInterruptTable ∧ s.itab = none)) ∧
    (t.resp = some ⟨.notYetRead, .none⟩ → t = ended s ⟨.notYetRead, .none⟩)

/-- While S.mode = Sleep the only transaction any command can issue is the write of MODE_CODE(Normal) to 0x00
(95_test_vectors.md, property 6). -/
def Obligations.SleepingBlockIssuesOnlyTheWakeWrite : Prop :=
  ∀ (s t : State) (i : Instr), s.mode = .known .sleep → exec i s = .next t →
    t.trace = s.trace ∨ t.trace = s.trace ++ [.writeOk s.devAddr 0x00 s.modeCodes.normal] ∨
      t.trace = s.trace ++ [.writeFault s.devAddr 0x00 s.modeCodes.normal]

/-- The mode state machine (41_control.md section 5): S.mode changes only by a SET_MODE that ends OK, to its own target, and from
Sleep only to Normal; a SET_MODE that ends OK always sets it. -/
def Obligations.ModeChangesOnlyBySetMode : Prop :=
  ∀ (s t : State) (i : Instr), s.modeCodes.Injective → exec i s = .next t →
    (t.mode = s.mode ∨ ∃ m, i = .setMode ((s.modeCodes.code m).setWidth 16) ∧ t.mode = .known m) ∧
    ∀ code, i = .setMode code →
      (t.resp = some ⟨.ok, .none⟩ → ∃ m, code = (s.modeCodes.code m).setWidth 16 ∧ t.mode = .known m ∧
        (s.mode = .known .sleep → m = .normal)) ∧
      (t.resp ≠ some ⟨.ok, .none⟩ → t.mode = s.mode)

/-- 60_exceptions.md R233: BusError is answered exactly when a transaction of the command failed, and it names that transaction: the
last one issued, every transaction before it having succeeded. -/
def Obligations.BusErrorNamesTheFailedTransaction : Prop :=
  ∀ (s t : State) (i : Instr), exec i s = .next t →
    ∃ evs, t.trace = s.trace ++ evs ∧
      ((∀ e ∈ evs, eventFailed e = false) ∧ (∀ a k, t.resp ≠ some ⟨.busError, .buserr a k⟩) ∨
        ∃ before e, evs = before ++ [e] ∧ (∀ x ∈ before, eventFailed x = false) ∧ eventFailed e = true ∧
          t.resp = some ⟨.busError, .buserr (eventAddr e) (eventKind e)⟩)

/-- The transactions of any command are a beginning of its row in the table of 70_reset_and_hazards.md section 4, in the order of its
own rule; all of the row when it ends OK (the spec derives the table). -/
def Obligations.TransactionsFollowTheCommandsPlan : Prop :=
  ∀ (s t : State) (i : Instr), exec i s = .next t →
    ∃ evs, t.trace = s.trace ++ evs ∧ evs.map (fun e => (eventKind e, eventAddr e)) <+: planned i ∧
      (∀ p, t.resp = some ⟨.ok, p⟩ → evs.map (fun e => (eventKind e, eventAddr e)) = planned i)

/-- 20_memory.md R51: every transaction carries S.dev_addr and a register of the map's accessed column, for its kind. -/
def Obligations.TransactionsStayOnTheRegisterMap : Prop :=
  ∀ (s t : State) (i : Instr), exec i s = .next t →
    ∃ evs, t.trace = s.trace ++ evs ∧ ∀ e ∈ evs, eventDev e = s.devAddr ∧
      (eventKind e = .read → mapReads (eventAddr e)) ∧ (eventKind e = .write → mapWrites (eventAddr e))

/-- 10_state.md R34: each cache is changed only by its own update command. -/
def Obligations.CachesChangeOnlyByTheirUpdate : Prop :=
  ∀ (s t : State) (i : Instr), exec i s = .next t →
    (i ≠ .updatePixelTemperatureMatrix → t.pix = s.pix) ∧
    (i ≠ .updateThermistorTemperature → t.therm = s.therm) ∧
    (i ≠ .updateInterruptTable → t.itab = s.itab)

/-- 10_state.md R24: no command writes S.dev_addr; nor is MODE_CODE (00_scope.md R8) ever changed by a step. That
`exec` leaves the port and the index k alone too is the model's own split of a command (log 2 and log 3, DESIGN CHOICE), not the spec's:
that each command leaves the port (R30) and advances k by exactly 1 (R21) happens in `accept`, before `exec` runs, and is said by
StepRunsTheDecodedCommand and EveryCommandAdvancesTheIndexByOne. -/
def Obligations.NoCommandWritesTheDeviceAddress : Prop :=
  (∀ (s t : State) (i : Instr), exec i s = .next t →
    t.devAddr = s.devAddr ∧ t.modeCodes = s.modeCodes ∧ t.port = s.port ∧ t.pos = s.pos) ∧
  ∀ s t : State, step s = .next t → t.devAddr = s.devAddr ∧ t.modeCodes = s.modeCodes

/-- 10_state.md R26: S.fps is written by SET_FPS only, and no command reads it: with another value of it every command does the same
and, unless it is a SET_FPS, keeps that value. -/
def Obligations.FrameRateCopyIsReadByNothing : Prop :=
  ∀ (s t : State) (i : Instr) (f : CachedFps), exec i s = .next t →
    ((∀ code, i ≠ .setFpsMode code) → t.fps = s.fps ∧ exec i { s with fps := f } = .next { t with fps := f }) ∧
    ∃ g, exec i { s with fps := f } = .next { t with fps := g }

/-- 60_exceptions.md R240: an error status does not persist: whatever the last response was, the next command runs the same. -/
def Obligations.LastResponseChangesNoCommand : Prop :=
  ∀ (s : State) (i : Instr) (r : Option Response), exec i { s with resp := r } = exec i s

/-- 30_encoding.md R101, 60_exceptions.md R230: from every state whose cached pixels are in range, Busy as a command finds it or not,
every command ends with exactly one response, its payload the one that goes with its status, and the block is then Idle; the status
codes are distinct and 7 is never one. -/
def Obligations.EveryCommandEndsWithOneResponse : Prop :=
  (∀ (s : State) (i : Instr), (∀ (j : Fin 64) (q : Int), s.pix[j.val] = some q → PixelInRange q) →
    ∃ t r, exec i s = .next t ∧ t.resp = some r ∧ t.busy = .idle ∧ r.WellFormed) ∧
  (∀ a b : Status, a.code = b.code → a = b) ∧ ∀ a : Status, a.code ≠ 7

/-- 30_encoding.md R102: every payload of its domain fits its width, and no two payloads of one kind, for each of the ten kinds, have
one packing. -/
def Obligations.PayloadPackingFitsAndIsFaithful : Prop :=
  (∀ p : Payload, p.InDomain → p.packed < 2 ^ p.width) ∧
  ∀ p p' : Payload, p.SameKind p' → p.InDomain → p'.InDomain → p.packed = p'.packed → p = p'

/-! ## The reference device and the assembler -/

/-- 20_memory.md R78: RD answers a read with D[a], a write of v sets D[a] and no other byte, and a transaction whose ordinal is listed
as failing fails and changes no byte. That RD counts its own transactions, from 1, is the model's choice (log 7). -/
def Obligations.ReferenceDeviceIsAByteArray : Prop :=
  ∀ (s : State) (rd : RefDevice) (a v : Byte), s.oracle = .reference rd → rd.bytes.wf = true →
    ((rd.served + 1) ∉ rd.failing →
      answersRead s a (rd.bytes.read a.toNat) ∧ ¬ failsWrite s a v ∧
      (readDone s a (rd.bytes.read a.toNat)).oracle = .reference { rd with served := rd.served + 1 } ∧
      ∃ d : Memory, (writeDone s a v).oracle = .reference { rd with bytes := d, served := rd.served + 1 } ∧ d.wf = true ∧
        ∀ x : Byte, d.read x.toNat = if x = a then v else rd.bytes.read x.toNat) ∧
    ((rd.served + 1) ∈ rd.failing →
      failsRead s a ∧ failsWrite s a v ∧
      (readFailed s a).oracle = .reference { rd with served := rd.served + 1 } ∧
      (writeFailed s a v).oracle = .reference { rd with served := rd.served + 1 })

/-- 30_encoding.md R99: a command written as its mnemonic and its operands, each as an integer or a symbol, assembles to its word,
whatever 16-bit value an idx or code operand has (the command's own check is not the assembler's). A line is rejected when a written
operand has no value in the range of its kind, when the operand count is neither the command's own nor that of a pseudo-instruction,
and when the mnemonic is none of the twenty (the last is DEDUCED, log 16). And whatever line is accepted, its word is
well-formed. The details of the text are those of log 16. -/
def Obligations.AssembledWordsAreLegal : Prop :=
  ∀ codes : ModeCodes,
    (∀ (i : Instr) (texts : List (List Char)),
      List.Forall₂ (fun operand t => WritesOperand codes operand.1 t operand.2) (asmOperands i) texts →
      assemble codes (written (asmMnemonic i) texts) = .ok (encode i)) ∧
    (∀ (i : Instr) (texts : List (List Char)) (operand : AsmKind × Int) (t : List Char), (∀ u ∈ texts, OperandWord u) →
      (operand, t) ∈ (asmOperands i).zip texts → (∀ n, WritesOperand codes operand.1 t n → ¬ InOperandRange operand.1 n) →
      ∃ e, assemble codes (written (asmMnemonic i) texts) = .error e) ∧
    (∀ (i : Instr) (texts : List (List Char)), (∀ u ∈ texts, OperandWord u) → ¬ TakesOperandCount i texts.length →
      ∃ e, assemble codes (written (asmMnemonic i) texts) = .error e) ∧
    (∀ (name : List Char) (texts : List (List Char)), OperandWord name → (∀ u ∈ texts, OperandWord u) →
      (∀ i, asmMnemonic i ≠ name) → ∃ e, assemble codes (written name texts) = .error e) ∧
    ∀ (line : List Char) (w : Word), assemble codes line = .ok w → ∃ i, decode w = .ok i

/-- 30_encoding.md R100: each pseudo-instruction expands to the command with the source's default arguments, whatever its written
operands are. -/
def Obligations.PseudoInstructionsExpand : Prop :=
  ∀ codes : ModeCodes,
    assemble codes "clear_flags".toList = assemble codes "clear_flags true, true, true".toList ∧
    assemble codes "clear_flags".toList = .ok (encode (.clearFlags true true true)) ∧
    assemble codes "enable_interrupt".toList = assemble codes "enable_interrupt true, absolute".toList ∧
    assemble codes "enable_interrupt".toList = .ok (encode (.enableInterrupt true 1)) ∧
    (∀ e : List Char, e ≠ [] → (∀ c ∈ e, c ≠ ' ' ∧ c ≠ ',') →
      assemble codes ("enable_interrupt ".toList ++ e) = assemble codes ("enable_interrupt ".toList ++ e ++ ", absolute".toList)) ∧
    ∀ lo hi : List Char, lo ≠ [] → hi ≠ [] → (∀ c ∈ lo, c ≠ ' ' ∧ c ≠ ',') → (∀ c ∈ hi, c ≠ ' ' ∧ c ≠ ',') →
      assemble codes ("set_interrupt_thresholds ".toList ++ lo ++ ", ".toList ++ hi) =
        assemble codes ("set_interrupt_thresholds ".toList ++ lo ++ ", ".toList ++ hi ++ ", 0".toList)
end

