-- ==== Sys2Proof/Laws/Assembler.lean ====
section
/-! SUPPORT. What the assembler reads: a numeral, an integer, one operand, the texts of a written line (30_encoding.md R99). -/

namespace Sys2Proof.Machine

/-! ## Numerals -/

theorem digit?_eq_some_iff {base : Nat} (hb : base ≤ 16) (c : Char) (d : Nat) :
    digit? base c = some d ↔ IsDigit base c d := by
  constructor
  · intro h
    simp only [digit?] at h
    split at h
    · rename_i v hv
      split at h
      · injection h with h
        subst h
        refine ⟨by assumption, ?_⟩
        have hc : c = Char.ofNat c.toNat := (Char.ofNat_toNat c).symm
        split at hv
        · rename_i hr
          have hv : c.toNat - 48 = v := by simpa using hv
          rw [hc]
          generalize c.toNat = n at *
          subst hv
          obtain ⟨h1, h2⟩ := hr
          interval_cases n <;> decide
        · split at hv
          · rename_i hr
            have hv : c.toNat - 87 = v := by simpa using hv
            rw [hc]
            generalize c.toNat = n at *
            subst hv
            obtain ⟨h1, h2⟩ := hr
            interval_cases n <;> decide
          · split at hv
            · rename_i hr
              have hv : c.toNat - 55 = v := by simpa using hv
              rw [hc]
              generalize c.toNat = n at *
              subst hv
              obtain ⟨h1, h2⟩ := hr
              interval_cases n <;> decide
            · cases hv
      · cases h
    · cases h
  · rintro ⟨hd, h⟩
    have h16 : d < 16 := by omega
    interval_cases d <;> rcases h with h | h <;> injection h with h <;> subst h <;> exact if_pos hd

theorem digitsFrom_eq_some_iff {base : Nat} (hb : base ≤ 16) :
    ∀ (t : List Char) (acc n : Nat), digitsFrom base acc t = some n ↔
      ∃ digits, List.Forall₂ (IsDigit base) t digits ∧ n = acc * base ^ t.length + Nat.ofDigits base digits.reverse
  | [], acc, n => by simp [digitsFrom, eq_comm]
  | c :: cs, acc, n => by
    simp only [digitsFrom, List.length_cons]
    constructor
    · intro h
      split at h
      · rename_i d hd
        obtain ⟨ds, hds, rfl⟩ := (digitsFrom_eq_some_iff hb cs _ n).1 h
        refine ⟨d :: ds, .cons ((digit?_eq_some_iff hb c d).1 hd) hds, ?_⟩
        simp [Nat.ofDigits_append, hds.length_eq]
        ring
      · cases h
    · rintro ⟨_, h, rfl⟩
      obtain ⟨d, ds, hd, hds, rfl⟩ := List.forall₂_cons_left_iff.1 h
      rw [(digit?_eq_some_iff hb c d).2 hd]
      refine (digitsFrom_eq_some_iff hb cs _ _).2 ⟨ds, hds, ?_⟩
      simp [Nat.ofDigits_append, hds.length_eq]
      ring

theorem number?_eq_some_iff {base : Nat} (hb : base ≤ 16) (t : List Char) (n : Nat) :
    number? base t = some n ↔ IsNumeral base t n := by
  cases t with
  | nil => simp [number?, IsNumeral]
  | cons c cs => simp [number?, IsNumeral, digitsFrom_eq_some_iff hb]

/-- The first character of a numeral is a digit of the base. -/
theorem IsNumeral.head {base : Nat} {c : Char} {cs : List Char} {n : Nat} (h : IsNumeral base (c :: cs) n) :
    ∃ d, IsDigit base c d := by
  obtain ⟨-, ds, hds, -⟩ := h
  cases hds with
  | cons hd _ => exact ⟨_, hd⟩

theorem not_isDigit_ten {c : Char} (h : digit? 10 c = none) (d : Nat) : ¬ IsDigit 10 c d := by
  intro hd
  rw [(digit?_eq_some_iff (by omega) c d).2 hd] at h
  cases h

/-- What the assembler reads as an integer is what the text writes. -/
theorem integer?_eq_some_iff (t : List Char) (n : Int) : integer? t = some n ↔ WritesInteger t n := by
  have ten (t : List Char) (m : Nat) := number?_eq_some_iff (base := 10) (by omega) t m
  have hex (t : List Char) (m : Nat) := number?_eq_some_iff (base := 16) (by omega) t m
  constructor
  · intro h
    unfold integer? at h
    split at h <;> obtain ⟨m, hm, rfl⟩ := Option.map_eq_some_iff.1 h
    · exact ⟨_, m, .inr ⟨(hex _ _).1 hm, rfl, rfl⟩⟩
    · exact ⟨_, m, .inl ⟨(ten _ _).1 hm, .inr (.inr ⟨rfl, rfl⟩)⟩⟩
    · exact ⟨_, m, .inl ⟨(ten _ _).1 hm, .inr (.inl ⟨rfl, rfl⟩)⟩⟩
    · exact ⟨_, m, .inl ⟨(ten _ _).1 hm, .inl ⟨rfl, rfl⟩⟩⟩
  · rintro ⟨ds, m, ⟨hm, ⟨rfl, rfl⟩ | ⟨rfl, rfl⟩ | ⟨rfl, rfl⟩⟩ | ⟨hm, rfl, rfl⟩⟩
    · unfold integer?
      split
      · obtain ⟨-, ds, hds, -⟩ := hm
        cases hds with
        | cons _ h =>
          cases h with
          | cons hx _ => exact absurd hx (not_isDigit_ten (by decide) _)
      · obtain ⟨d, hd⟩ := hm.head
        exact absurd hd (not_isDigit_ten (by decide) d)
      · obtain ⟨d, hd⟩ := hm.head
        exact absurd hd (not_isDigit_ten (by decide) d)
      · rw [(ten _ _).2 hm]
        rfl
    · simp [integer?, (ten _ _).2 hm]
    · simp [integer?, (ten _ _).2 hm]
    · simp [integer?, (hex _ _).2 hm]

/-! ## One operand -/

theorem inRange_iff (k : AsmKind) (n : Int) : k.inRange n = true ↔ InOperandRange k n := by
  cases k <;> simp [AsmKind.inRange, InOperandRange] <;> omega

/-- A symbol is none of the integers. -/
theorem integer?_symbol {codes : ModeCodes} {k : AsmKind} {t : List Char} {n : Int} (h : (t, n) ∈ operandSymbols codes k) :
    integer? t = none := by
  have all : ∀ p ∈ operandSymbols codes k, integer? p.1 = none := by
    cases k <;> simp only [operandSymbols, List.forall_mem_cons, List.not_mem_nil, false_implies, implies_true, and_true] <;>
      trivial
  exact all _ h

/-- One more symbol before the others. -/
theorem symbol_step {t a : List Char} {x n : Int} {r : Option Int} {P : Prop} (hr : r = some n ↔ P) (ha : t = a → ¬ P) :
    (if t = a then some x else r) = some n ↔ (t = a ∧ n = x) ∨ P := by
  split
  · rename_i h
    simp [h, ha h, eq_comm]
  · rename_i h
    simp [h, hr]

theorem symbol?_eq_some_iff (codes : ModeCodes) (k : AsmKind) (t : List Char) (n : Int) :
    k.symbol? codes t = some n ↔ (t, n) ∈ operandSymbols codes k := by
  have last {a : List Char} {x : Int} : (if t = a then some x else none) = some n ↔ t = a ∧ n = x := by
    simp [eq_comm (a := n)]
  cases k <;> simp only [AsmKind.symbol?, operandSymbols, List.mem_cons, List.not_mem_nil, Prod.mk.injEq, or_false]
  case byte => simp
  case idx => simp
  case centi => simp
  case bool => exact symbol_step last (by rintro rfl; simp)
  case interruptCode => exact symbol_step last (by rintro rfl; simp)
  case fpsCode => exact symbol_step last (by rintro rfl; simp)
  case modeCode =>
    exact symbol_step (symbol_step (symbol_step last (by rintro rfl; simp)) (by rintro rfl; simp)) (by rintro rfl; simp)

/-- A symbol's value is in its operand's range. -/
theorem symbol_inRange {codes : ModeCodes} {k : AsmKind} {t : List Char} {n : Int} (h : (t, n) ∈ operandSymbols codes k) :
    InOperandRange k n := by
  have b1 := codes.normal.isLt
  have b2 := codes.sleep.isLt
  have b3 := codes.standBy60.isLt
  have b4 := codes.standBy10.isLt
  cases k <;> simp only [operandSymbols, List.mem_cons, List.not_mem_nil, Prod.mk.injEq, or_false] at h <;>
    simp only [InOperandRange] <;> omega

/-- All that reading one operand can do: it answers a value exactly when the text writes it and it is in range. -/
theorem operandValue_eq_ok_iff (codes : ModeCodes) (k : AsmKind) (t : List Char) (n : Int) :
    operandValue codes k t = .ok n ↔ WritesOperand codes k t n ∧ InOperandRange k n := by
  rw [← inRange_iff, WritesOperand, ← integer?_eq_some_iff, ← symbol?_eq_some_iff, operandValue]
  cases hs : k.symbol? codes t with
  | some m =>
    have hm := (symbol?_eq_some_iff codes k t m).1 hs
    have hr := (inRange_iff k m).2 (symbol_inRange hm)
    simp only [integer?_symbol hm, reduceCtorEq, false_or, Except.ok.injEq, Option.some.injEq]
    exact ⟨fun h => ⟨h, h ▸ hr⟩, fun h => h.1⟩
  | none =>
    cases hi : integer? t with
    | none => simp
    | some m =>
      simp only [Option.some.injEq, reduceCtorEq, or_false]
      split
      · rename_i hr
        rw [Except.ok.injEq]
        exact ⟨fun h => ⟨h, h ▸ hr⟩, fun h => h.1⟩
      · rename_i hr
        simp only [reduceCtorEq, false_iff]
        rintro ⟨rfl, h⟩
        exact hr h

/-- All that reading the operands can do. -/
theorem operandValues_eq_ok_iff (codes : ModeCodes) : ∀ (ks : List AsmKind) (ts : List (List Char)) (ns : List Int),
    operandValues codes ks ts = .ok ns ↔
      List.Forall₂ (fun kt n => operandValue codes kt.1 kt.2 = .ok n) (ks.zip ts) ns ∧ ks.length = ts.length
  | [], [], ns => by simp [operandValues, List.forall₂_nil_left_iff, eq_comm]
  | [], _ :: _, ns => by simp [operandValues]
  | _ :: _, [], ns => by simp [operandValues]
  | k :: ks, t :: ts, ns => by
    simp only [operandValues, List.zip_cons_cons, List.forall₂_cons_left_iff, List.length_cons, Nat.add_right_cancel_iff]
    cases hv : operandValue codes k t with
    | error e => simp
    | ok v =>
      cases hvs : operandValues codes ks ts with
      | error e =>
        simp only [reduceCtorEq, false_iff]
        rintro ⟨⟨n, ns', -, h, -⟩, hl⟩
        have := (operandValues_eq_ok_iff codes ks ts ns').2 ⟨h, hl⟩
        rw [hvs] at this
        cases this
      | ok vs =>
        have ih := operandValues_eq_ok_iff codes ks ts
        constructor
        · intro h
          injection h with h
          subst h
          exact ⟨⟨v, vs, rfl, ((ih vs).1 hvs).1, rfl⟩, ((ih vs).1 hvs).2⟩
        · rintro ⟨⟨n, ns', hn, h, rfl⟩, hl⟩
          have := (ih ns').2 ⟨h, hl⟩
          rw [hvs] at this
          injection this with this
          injection hn with hn
          rw [hn, this]

/-! ## The texts of a written line -/

theorem trim_of_ends {l : List Char} (h : ∀ c ∈ l.head?, c ≠ ' ') (h' : ∀ c ∈ l.getLast?, c ≠ ' ') : trim l = l := by
  have drop : ∀ l : List Char, (∀ c ∈ l.head?, c ≠ ' ') → l.dropWhile (· = ' ') = l := by
    intro l h
    cases l with
    | nil => rfl
    | cons c cs =>
      have := h c (by simp)
      simp [List.dropWhile, this]
  unfold trim
  rw [drop l h, drop _ (by simpa using h'), List.reverse_reverse]

theorem trim_space (l : List Char) : trim (' ' :: l) = trim l := by simp [trim]

theorem OperandWord.head {t : List Char} (h : OperandWord t) : ∀ c ∈ t.head?, c ≠ ' ' :=
  fun c hc => (h.2 c (List.mem_of_mem_head? hc)).1

theorem OperandWord.last {t : List Char} (h : OperandWord t) : ∀ c ∈ t.getLast?, c ≠ ' ' :=
  fun c hc => (h.2 c (List.mem_of_mem_getLast? hc)).1

theorem OperandWord.trim {t : List Char} (h : OperandWord t) : trim t = t := trim_of_ends h.head h.last

theorem splitOn_of_notMem {l : List Char} (h : ∀ c ∈ l, c ≠ ',') : splitOn ',' l = [l] := by
  induction l with
  | nil => rfl
  | cons c cs ih => simp [splitOn, h c (by simp), ih (fun c hc => h c (by simp [hc]))]

theorem splitOn_append {l m : List Char} (h : ∀ c ∈ l, c ≠ ',') : splitOn ',' (l ++ ',' :: m) = l :: splitOn ',' m := by
  induction l with
  | nil => simp [splitOn]
  | cons c cs ih => simp [splitOn, h c (by simp), ih (fun c hc => h c (by simp [hc]))]

/-- Cutting at the commas and dropping the spaces gives the texts back. -/
theorem splitOn_commaSeparated : ∀ {ts : List (List Char)}, ts ≠ [] → (∀ t ∈ ts, OperandWord t) →
    (splitOn ',' (' ' :: commaSeparated ts)).map trim = ts
  | [t], _, h => by
    have ht := h t (by simp)
    rw [commaSeparated, splitOn_of_notMem (by simpa using fun c hc => (ht.2 c hc).2)]
    simp [trim_space, ht.trim]
  | t :: u :: rest, _, h => by
    have ht := h t (by simp)
    rw [commaSeparated, ← List.cons_append, splitOn_append (by simpa using fun c hc => (ht.2 c hc).2), List.map_cons,
      splitOn_commaSeparated (by simp) (fun v hv => h v (by simp [hv])), trim_space, ht.trim]

/-- A list of texts between commas begins and ends with a character of a text. -/
theorem commaSeparated_ends : ∀ {ts : List (List Char)}, ts ≠ [] → (∀ t ∈ ts, OperandWord t) →
    commaSeparated ts ≠ [] ∧ (∀ c ∈ (commaSeparated ts).head?, c ≠ ' ') ∧ ∀ c ∈ (commaSeparated ts).getLast?, c ≠ ' '
  | [t], _, h => ⟨(h t (by simp)).1, (h t (by simp)).head, (h t (by simp)).last⟩
  | t :: u :: rest, _, h => by
    have ht := h t (by simp)
    have ih := commaSeparated_ends (ts := u :: rest) (by simp) (fun v hv => h v (by simp [hv]))
    refine ⟨by simp [commaSeparated], ?_, ?_⟩
    · rw [commaSeparated, List.head?_append_of_ne_nil _ ht.1]
      exact ht.head
    · have e : commaSeparated (t :: u :: rest) = (t ++ [',', ' ']) ++ commaSeparated (u :: rest) := by simp [commaSeparated]
      rw [e, List.getLast?_append_of_ne_nil _ ih.1]
      exact ih.2.2

/-- The operand texts of the rest of a line after its mnemonic. -/
theorem operandTexts_commaSeparated {ts : List (List Char)} (hne : ts ≠ []) (h : ∀ t ∈ ts, OperandWord t) :
    operandTexts (' ' :: commaSeparated ts) = ts := by
  obtain ⟨h1, h2, h3⟩ := commaSeparated_ends hne h
  rw [operandTexts, trim_space, trim_of_ends h2 h3, if_neg h1, splitOn_commaSeparated hne h]

/-- A mnemonic has no comma and no space in it. -/
theorem asmMnemonic_word (i : Instr) : OperandWord (asmMnemonic i) := by
  have all : asmMnemonic i ≠ [] ∧ (asmMnemonic i).all (fun c => decide (c ≠ ' ') && decide (c ≠ ',')) = true := by
    cases i <;> exact ⟨List.cons_ne_nil _ _, rfl⟩
  exact ⟨all.1, fun c hc => by simpa using List.all_eq_true.1 all.2 c hc⟩

theorem IsNumeral.word {base : Nat} (hb : base ≤ 16) {t : List Char} {n : Nat} (h : IsNumeral base t n) : OperandWord t := by
  obtain ⟨hne, digits, hds, -⟩ := h
  refine ⟨hne, fun c hc => ?_⟩
  obtain ⟨hl, hg⟩ := List.forall₂_iff_get.1 hds
  obtain ⟨i, hi, hc⟩ := List.getElem_of_mem hc
  have hd := hg i hi (hl ▸ hi)
  simp only [List.get_eq_getElem, hc] at hd
  constructor <;> rintro rfl <;> rw [← digit?_eq_some_iff hb] at hd <;> simp [digit?] at hd

/-- A text that writes a value has no comma and no space in it. -/
theorem WritesOperand.word {codes : ModeCodes} {k : AsmKind} {t : List Char} {n : Int} (h : WritesOperand codes k t n) :
    OperandWord t := by
  rcases h with ⟨ds, m, ⟨hm, ⟨rfl, rfl⟩ | ⟨rfl, rfl⟩ | ⟨rfl, rfl⟩⟩ | ⟨hm, rfl, rfl⟩⟩ | h
  · exact hm.word (by omega)
  · exact ⟨by simp, by simpa using (hm.word (by omega)).2⟩
  · exact ⟨by simp, by simpa using (hm.word (by omega)).2⟩
  · exact ⟨by simp, by simpa using (hm.word (by omega)).2⟩
  · have all : ∀ p ∈ operandSymbols codes k, OperandWord p.1 := by
      cases k <;> simp [operandSymbols, OperandWord]
    exact all _ h

/-- A written line is its mnemonic and its operand texts. -/
theorem written_parts {name : List Char} {ts : List (List Char)} (hn : OperandWord name) (h : ∀ t ∈ ts, OperandWord t) :
    trim (written name ts) = written name ts ∧ (written name ts).takeWhile (· ≠ ' ') = name ∧
      operandTexts ((written name ts).dropWhile (· ≠ ' ')) = ts := by
  have hs : ∀ c ∈ name, (decide (c ≠ ' ')) = true := fun c hc => decide_eq_true (hn.2 c hc).1
  cases ts with
  | nil =>
    refine ⟨hn.trim, List.takeWhile_eq_self_iff.2 hs, ?_⟩
    rw [written, List.dropWhile_eq_nil_iff.2 hs]
    rfl
  | cons t rest =>
    obtain ⟨h1, h2, h3⟩ := commaSeparated_ends (ts := t :: rest) (by simp) h
    simp only [written]
    refine ⟨trim_of_ends ?_ ?_, ?_, ?_⟩
    · rw [List.head?_append_of_ne_nil _ hn.1]
      exact hn.head
    · have e : name ++ ' ' :: commaSeparated (t :: rest) = (name ++ [' ']) ++ commaSeparated (t :: rest) := by simp
      rw [e, List.getLast?_append_of_ne_nil _ h1]
      exact h3
    · rw [List.takeWhile_append_of_pos hs]
      simp
    · rw [List.dropWhile_append_of_pos hs]
      exact operandTexts_commaSeparated (by simp) h

/-- The assembler's row of a command has its mnemonic, its operand kinds and its opcode. -/
theorem asmForms_find (i : Instr) :
    asmForms.find? (fun f => decide (f.name = asmMnemonic i)) =
      some ⟨asmMnemonic i, (asmOperands i).map Prod.fst, i.command.op⟩ := by
  cases i <;> rfl

/-- Defaults come after the written operands, if there are any. -/
theorem withDefaults_append (op : Byte) {ts : List (List Char)} (h : ts ≠ []) : ∃ more, withDefaults op ts = ts ++ more := by
  unfold withDefaults
  repeat' split
  all_goals first
    | exact ⟨[], (List.append_nil _).symm⟩
    | exact absurd rfl h
    | exact ⟨_, rfl⟩

/-- A count that the defaults fill up to the command's own is one the assembler takes. -/
theorem takesOperandCount_of_withDefaults {i : Instr} {ts : List (List Char)}
    (h : (withDefaults i.command.op ts).length = (asmOperands i).length) : TakesOperandCount i ts.length := by
  cases i
  case clearFlags =>
    rcases ts with _ | ⟨a, _ | ⟨b, _ | ⟨c, ts⟩⟩⟩
    · exact .inr rfl
    · exact absurd h (show ¬ (1 = 3) by decide)
    · exact absurd h (show ¬ (2 = 3) by decide)
    · exact .inl h
  case enableInterrupt =>
    rcases ts with _ | ⟨a, _ | ⟨b, ts⟩⟩
    · exact .inr (.inl rfl)
    · exact .inr (.inr rfl)
    · exact .inl h
  case setInterruptThresholds =>
    rcases ts with _ | ⟨a, _ | ⟨b, _ | ⟨c, ts⟩⟩⟩
    · exact absurd h (show ¬ (0 = 3) by decide)
    · exact absurd h (show ¬ (1 = 3) by decide)
    · exact .inr rfl
    · exact .inl h
  all_goals exact .inl h

/-- Assembling a written line is looking its mnemonic up and reading its operand texts. -/
theorem assemble_written (codes : ModeCodes) {name : List Char} {ts : List (List Char)} (hn : OperandWord name)
    (h : ∀ t ∈ ts, OperandWord t) :
    assemble codes (written name ts) =
      match asmForms.find? (fun f => decide (f.name = name)) with
      | none => .error .unknownMnemonic
      | some f =>
        match operandValues codes f.kinds (withDefaults f.opcode ts) with
        | .error e => .error e
        | .ok vs => .ok (Command.toWord ⟨f.opcode, slotField vs 0, slotField vs 1, slotField vs 2, 0#8⟩) := by
  obtain ⟨h1, h2, h3⟩ := written_parts hn h
  simp only [assemble, h1, h2, h3] <;> rfl

end Sys2Proof.Machine
end

