-- ==== Sys2Proof/Laws/BitCodec.lean ====
section
/-! SUPPORT. The pure functions as plain arithmetic. -/

namespace Sys2Proof.Machine

/-- The 12-bit union of a pair is msb[3:0] : lsb. -/
theorem pairUnion_toNat (lsb msb : Byte) :
    (((msb.extractLsb' 0 4).setWidth 12 <<< 8) ||| lsb.setWidth 12 : BitVec 12).toNat =
      256 * (msb.toNat % 16) + lsb.toNat := by
  have hl := lsb.isLt
  have h1 : ((msb.extractLsb' 0 4).setWidth 12 <<< 8 : BitVec 12).toNat = (msb.toNat % 16) <<< 8 := by
    simp [BitVec.toNat_shiftLeft, BitVec.extractLsb'_toNat, Nat.shiftLeft_eq]
    omega
  have h2 : (lsb.setWidth 12 : BitVec 12).toNat = lsb.toNat := by
    simp [BitVec.toNat_setWidth]; omega
  rw [BitVec.toNat_or, h1, h2, ← Nat.shiftLeft_add_eq_or_of_lt (by simpa using hl), Nat.shiftLeft_eq]
  omega

/-- A pixel reading in the two ranges of its sign (40_codec.md R122). -/
theorem decodePixelFn_eq (lsb msb : Byte) :
    decodePixelFn lsb msb =
      if msb.toNat % 16 < 8 then ((256 * (msb.toNat % 16) + lsb.toNat : Nat) : Int)
      else ((256 * (msb.toNat % 16) + lsb.toNat : Nat) : Int) - 4096 := by
  have hl := lsb.isLt
  simp only [decodePixelFn, BitVec.getLsbD, pairUnion_toNat, Nat.testBit_eq_decide_div_mod_eq]
  split
  · have : (256 * (msb.toNat % 16) + lsb.toNat) / 2048 % 2 = 0 := by omega
    simp [this]
  · have : (256 * (msb.toNat % 16) + lsb.toNat) / 2048 % 2 = 1 := by omega
    simp [this]

/-- -2048 <= q <= 2047 (40_codec.md R122). -/
theorem decodePixelFn_bounds (lsb msb : Byte) : -2048 ≤ decodePixelFn lsb msb ∧ decodePixelFn lsb msb ≤ 2047 := by
  have hl := lsb.isLt
  rw [decodePixelFn_eq]
  split <;> constructor <;> push_cast <;> omega

/-- A centi operand is the field read as signed (30_encoding.md R93). -/
theorem centi_eq_toInt (f : Field) : centi f = f.toInt := by
  have hf := f.isLt
  simp only [centi, BitVec.toInt, BitVec.getLsbD, Nat.testBit_eq_decide_div_mod_eq]
  split
  · have : f.toNat / 32768 % 2 = 0 := by omega
    simp [this]
  · have : f.toNat / 32768 % 2 = 1 := by omega
    simp [this]

/-- The pixel pair's addresses (40_codec.md R130). -/
theorem pixelRegisterPairFn_eq (row col : Nat) (hr : row ≤ 7) (hc : col ≤ 7) :
    (pixelRegisterPairFn row col).1.toNat = 0x80 + 2 * (8 * row + col) ∧
    (pixelRegisterPairFn row col).2.toNat = 0x81 + 2 * (8 * row + col) := by
  have hb : Config.pixelBase.toNat = 128 := rfl
  have h1 : (1 : Byte).toNat = 1 := rfl
  simp only [pixelRegisterPairFn, BitVec.toNat_add, BitVec.toNat_ofNat, hb, h1]
  omega

end Sys2Proof.Machine
end

