-- ==== Sys2Proof/Laws/Memory.lean ====
section
/-! SUPPORT. Memory keeps its canonical form; a read after a write gives the byte written, and every other byte is as before. -/

namespace Sys2Proof.Machine

theorem Memory.wfFrom_cons (lo a : Nat) (b : Byte) (m : Memory) :
    Memory.wfFrom lo ((a, b) :: m) = true ↔
      lo ≤ a ∧ a < 256 ∧ b ≠ Memory.unlisted ∧ Memory.wfFrom (a + 1) m = true := by
  simp [Memory.wfFrom, and_assoc]

theorem Memory.wfFrom_mono {lo lo' : Nat} (h : lo' ≤ lo) : ∀ {m : Memory}, Memory.wfFrom lo m = true →
    Memory.wfFrom lo' m = true
  | [], _ => rfl
  | (a, b) :: m, hm => by
    rw [Memory.wfFrom_cons] at hm ⊢
    exact ⟨h.trans hm.1, hm.2⟩

theorem Memory.cons_wf {lo a : Nat} {b : Byte} {m : Memory} (hlo : lo ≤ a) (ha : a < 256)
    (hm : Memory.wfFrom (a + 1) m = true) : Memory.wfFrom lo (Memory.cons a b m) = true := by
  unfold Memory.cons
  split
  · exact Memory.wfFrom_mono (by omega) hm
  · rename_i hb
    exact (Memory.wfFrom_cons ..).2 ⟨hlo, ha, hb, hm⟩

theorem Memory.write_wfFrom {a : Nat} (ha : a < 256) (b : Byte) : ∀ {lo : Nat} {m : Memory}, lo ≤ a →
    Memory.wfFrom lo m = true → Memory.wfFrom lo (m.write a b) = true
  | _, [], hlo, _ => Memory.cons_wf hlo ha rfl
  | _, (a', b') :: rest, hlo, hm => by
    have h := (Memory.wfFrom_cons ..).1 hm
    unfold Memory.write
    split
    · exact Memory.cons_wf hlo ha ((Memory.wfFrom_cons ..).2 ⟨by omega, h.2⟩)
    · split
      · rename_i heq
        subst heq
        exact Memory.cons_wf hlo ha h.2.2.2
      · exact (Memory.wfFrom_cons ..).2 ⟨h.1, h.2.1, h.2.2.1, Memory.write_wfFrom ha b (by omega) h.2.2.2⟩

/-- Every write to a register address keeps the canonical form. -/
theorem Memory.write_wf {m : Memory} (a b : Byte) (hm : m.wf = true) : (m.write a.toNat b).wf = true :=
  Memory.write_wfFrom a.isLt b (Nat.zero_le _) hm

theorem Memory.read_below {lo a : Nat} : ∀ {m : Memory}, Memory.wfFrom lo m = true → a < lo →
    m.read a = Memory.unlisted
  | [], _, _ => rfl
  | (a', b') :: rest, hm, ha => by
    have h := (Memory.wfFrom_cons ..).1 hm
    unfold Memory.read
    rw [if_neg (by omega)]
    exact Memory.read_below h.2.2.2 (by omega)

theorem Memory.read_cons {a : Nat} {b : Byte} {m : Memory} (hm : Memory.wfFrom (a + 1) m = true) (x : Nat) :
    (Memory.cons a b m).read x = if x = a then b else m.read x := by
  unfold Memory.cons
  split
  · rename_i hb
    split
    · rename_i hx
      subst hx
      rw [Memory.read_below hm (by omega), hb]
    · rfl
  · simp only [Memory.read, eq_comm]

/-- A read after a write. -/
theorem Memory.read_write {a : Nat} (b : Byte) (x : Nat) : ∀ {lo : Nat} {m : Memory}, Memory.wfFrom lo m = true →
    (m.write a b).read x = if x = a then b else m.read x
  | _, [], _ => Memory.read_cons rfl x
  | _, (a', b') :: rest, hm => by
    have h := (Memory.wfFrom_cons ..).1 hm
    unfold Memory.write
    split
    · rename_i hlt
      exact Memory.read_cons ((Memory.wfFrom_cons ..).2 ⟨by omega, h.2⟩) x
    · split
      · rename_i heq
        subst heq
        rw [Memory.read_cons h.2.2.2 x]
        simp only [Memory.read]
        split_ifs <;> simp_all
      · simp only [Memory.read]
        split
        · rename_i hx
          rw [if_neg (by omega)]
        · exact Memory.read_write b x h.2.2.2

end Sys2Proof.Machine
end

