-- ==== Sys2Proof/Laws/State.lean ====
section
/-! SUPPORT. One lemma per field per update, true by rfl, so that no proof unfolds a record update. -/

namespace Sys2Proof.Machine

/-! ## deliver -/

@[simp] theorem deliver_devAddr (r : Response) (s : State) : (deliver r s).devAddr = s.devAddr := rfl
@[simp] theorem deliver_mode (r : Response) (s : State) : (deliver r s).mode = s.mode := rfl
@[simp] theorem deliver_fps (r : Response) (s : State) : (deliver r s).fps = s.fps := rfl
@[simp] theorem deliver_pix (r : Response) (s : State) : (deliver r s).pix = s.pix := rfl
@[simp] theorem deliver_therm (r : Response) (s : State) : (deliver r s).therm = s.therm := rfl
@[simp] theorem deliver_itab (r : Response) (s : State) : (deliver r s).itab = s.itab := rfl
@[simp] theorem deliver_busy (r : Response) (s : State) : (deliver r s).busy = .idle := rfl
@[simp] theorem deliver_resp (r : Response) (s : State) : (deliver r s).resp = some r := rfl
@[simp] theorem deliver_modeCodes (r : Response) (s : State) : (deliver r s).modeCodes = s.modeCodes := rfl
@[simp] theorem deliver_port (r : Response) (s : State) : (deliver r s).port = s.port := rfl
@[simp] theorem deliver_pos (r : Response) (s : State) : (deliver r s).pos = s.pos := rfl
@[simp] theorem deliver_trace (r : Response) (s : State) : (deliver r s).trace = s.trace := rfl
@[simp] theorem deliver_oracle (r : Response) (s : State) : (deliver r s).oracle = s.oracle := rfl

/-! ## State.setMode -/

@[simp] theorem State.setMode_devAddr (m : DeviceMode) (s : State) : (s.setMode m).devAddr = s.devAddr := rfl
@[simp] theorem State.setMode_mode (m : DeviceMode) (s : State) : (s.setMode m).mode = .known m := rfl
@[simp] theorem State.setMode_fps (m : DeviceMode) (s : State) : (s.setMode m).fps = s.fps := rfl
@[simp] theorem State.setMode_pix (m : DeviceMode) (s : State) : (s.setMode m).pix = s.pix := rfl
@[simp] theorem State.setMode_therm (m : DeviceMode) (s : State) : (s.setMode m).therm = s.therm := rfl
@[simp] theorem State.setMode_itab (m : DeviceMode) (s : State) : (s.setMode m).itab = s.itab := rfl
@[simp] theorem State.setMode_busy (m : DeviceMode) (s : State) : (s.setMode m).busy = s.busy := rfl
@[simp] theorem State.setMode_resp (m : DeviceMode) (s : State) : (s.setMode m).resp = s.resp := rfl
@[simp] theorem State.setMode_modeCodes (m : DeviceMode) (s : State) : (s.setMode m).modeCodes = s.modeCodes := rfl
@[simp] theorem State.setMode_port (m : DeviceMode) (s : State) : (s.setMode m).port = s.port := rfl
@[simp] theorem State.setMode_pos (m : DeviceMode) (s : State) : (s.setMode m).pos = s.pos := rfl
@[simp] theorem State.setMode_trace (m : DeviceMode) (s : State) : (s.setMode m).trace = s.trace := rfl
@[simp] theorem State.setMode_oracle (m : DeviceMode) (s : State) : (s.setMode m).oracle = s.oracle := rfl

/-! ## State.setFps -/

@[simp] theorem State.setFps_devAddr (f : FpsMode) (s : State) : (s.setFps f).devAddr = s.devAddr := rfl
@[simp] theorem State.setFps_mode (f : FpsMode) (s : State) : (s.setFps f).mode = s.mode := rfl
@[simp] theorem State.setFps_fps (f : FpsMode) (s : State) : (s.setFps f).fps = .known f := rfl
@[simp] theorem State.setFps_pix (f : FpsMode) (s : State) : (s.setFps f).pix = s.pix := rfl
@[simp] theorem State.setFps_therm (f : FpsMode) (s : State) : (s.setFps f).therm = s.therm := rfl
@[simp] theorem State.setFps_itab (f : FpsMode) (s : State) : (s.setFps f).itab = s.itab := rfl
@[simp] theorem State.setFps_busy (f : FpsMode) (s : State) : (s.setFps f).busy = s.busy := rfl
@[simp] theorem State.setFps_resp (f : FpsMode) (s : State) : (s.setFps f).resp = s.resp := rfl
@[simp] theorem State.setFps_modeCodes (f : FpsMode) (s : State) : (s.setFps f).modeCodes = s.modeCodes := rfl
@[simp] theorem State.setFps_port (f : FpsMode) (s : State) : (s.setFps f).port = s.port := rfl
@[simp] theorem State.setFps_pos (f : FpsMode) (s : State) : (s.setFps f).pos = s.pos := rfl
@[simp] theorem State.setFps_trace (f : FpsMode) (s : State) : (s.setFps f).trace = s.trace := rfl
@[simp] theorem State.setFps_oracle (f : FpsMode) (s : State) : (s.setFps f).oracle = s.oracle := rfl

/-! ## State.setPixel -/

@[simp] theorem State.setPixel_devAddr (i : Fin 64) (q : Int) (s : State) : (s.setPixel i q).devAddr = s.devAddr := rfl
@[simp] theorem State.setPixel_mode (i : Fin 64) (q : Int) (s : State) : (s.setPixel i q).mode = s.mode := rfl
@[simp] theorem State.setPixel_fps (i : Fin 64) (q : Int) (s : State) : (s.setPixel i q).fps = s.fps := rfl
@[simp] theorem State.setPixel_pix (i : Fin 64) (q : Int) (s : State) : (s.setPixel i q).pix = s.pix.set i.val (some q) i.isLt := rfl
@[simp] theorem State.setPixel_therm (i : Fin 64) (q : Int) (s : State) : (s.setPixel i q).therm = s.therm := rfl
@[simp] theorem State.setPixel_itab (i : Fin 64) (q : Int) (s : State) : (s.setPixel i q).itab = s.itab := rfl
@[simp] theorem State.setPixel_busy (i : Fin 64) (q : Int) (s : State) : (s.setPixel i q).busy = s.busy := rfl
@[simp] theorem State.setPixel_resp (i : Fin 64) (q : Int) (s : State) : (s.setPixel i q).resp = s.resp := rfl
@[simp] theorem State.setPixel_modeCodes (i : Fin 64) (q : Int) (s : State) : (s.setPixel i q).modeCodes = s.modeCodes := rfl
@[simp] theorem State.setPixel_port (i : Fin 64) (q : Int) (s : State) : (s.setPixel i q).port = s.port := rfl
@[simp] theorem State.setPixel_pos (i : Fin 64) (q : Int) (s : State) : (s.setPixel i q).pos = s.pos := rfl
@[simp] theorem State.setPixel_trace (i : Fin 64) (q : Int) (s : State) : (s.setPixel i q).trace = s.trace := rfl
@[simp] theorem State.setPixel_oracle (i : Fin 64) (q : Int) (s : State) : (s.setPixel i q).oracle = s.oracle := rfl

/-! ## State.setTherm -/

@[simp] theorem State.setTherm_devAddr (v : ThermValue) (s : State) : (s.setTherm v).devAddr = s.devAddr := rfl
@[simp] theorem State.setTherm_mode (v : ThermValue) (s : State) : (s.setTherm v).mode = s.mode := rfl
@[simp] theorem State.setTherm_fps (v : ThermValue) (s : State) : (s.setTherm v).fps = s.fps := rfl
@[simp] theorem State.setTherm_pix (v : ThermValue) (s : State) : (s.setTherm v).pix = s.pix := rfl
@[simp] theorem State.setTherm_therm (v : ThermValue) (s : State) : (s.setTherm v).therm = some v := rfl
@[simp] theorem State.setTherm_itab (v : ThermValue) (s : State) : (s.setTherm v).itab = s.itab := rfl
@[simp] theorem State.setTherm_busy (v : ThermValue) (s : State) : (s.setTherm v).busy = s.busy := rfl
@[simp] theorem State.setTherm_resp (v : ThermValue) (s : State) : (s.setTherm v).resp = s.resp := rfl
@[simp] theorem State.setTherm_modeCodes (v : ThermValue) (s : State) : (s.setTherm v).modeCodes = s.modeCodes := rfl
@[simp] theorem State.setTherm_port (v : ThermValue) (s : State) : (s.setTherm v).port = s.port := rfl
@[simp] theorem State.setTherm_pos (v : ThermValue) (s : State) : (s.setTherm v).pos = s.pos := rfl
@[simp] theorem State.setTherm_trace (v : ThermValue) (s : State) : (s.setTherm v).trace = s.trace := rfl
@[simp] theorem State.setTherm_oracle (v : ThermValue) (s : State) : (s.setTherm v).oracle = s.oracle := rfl

/-! ## State.setTable -/

@[simp] theorem State.setTable_devAddr (t : Vector Bool 64) (s : State) : (s.setTable t).devAddr = s.devAddr := rfl
@[simp] theorem State.setTable_mode (t : Vector Bool 64) (s : State) : (s.setTable t).mode = s.mode := rfl
@[simp] theorem State.setTable_fps (t : Vector Bool 64) (s : State) : (s.setTable t).fps = s.fps := rfl
@[simp] theorem State.setTable_pix (t : Vector Bool 64) (s : State) : (s.setTable t).pix = s.pix := rfl
@[simp] theorem State.setTable_therm (t : Vector Bool 64) (s : State) : (s.setTable t).therm = s.therm := rfl
@[simp] theorem State.setTable_itab (t : Vector Bool 64) (s : State) : (s.setTable t).itab = some t := rfl
@[simp] theorem State.setTable_busy (t : Vector Bool 64) (s : State) : (s.setTable t).busy = s.busy := rfl
@[simp] theorem State.setTable_resp (t : Vector Bool 64) (s : State) : (s.setTable t).resp = s.resp := rfl
@[simp] theorem State.setTable_modeCodes (t : Vector Bool 64) (s : State) : (s.setTable t).modeCodes = s.modeCodes := rfl
@[simp] theorem State.setTable_port (t : Vector Bool 64) (s : State) : (s.setTable t).port = s.port := rfl
@[simp] theorem State.setTable_pos (t : Vector Bool 64) (s : State) : (s.setTable t).pos = s.pos := rfl
@[simp] theorem State.setTable_trace (t : Vector Bool 64) (s : State) : (s.setTable t).trace = s.trace := rfl
@[simp] theorem State.setTable_oracle (t : Vector Bool 64) (s : State) : (s.setTable t).oracle = s.oracle := rfl

/-! ## afterTransaction -/

@[simp] theorem afterTransaction_devAddr (rq : BusRequest) (ans : BusAnswer) (s : State) : (afterTransaction rq ans s).devAddr = s.devAddr := rfl
@[simp] theorem afterTransaction_mode (rq : BusRequest) (ans : BusAnswer) (s : State) : (afterTransaction rq ans s).mode = s.mode := rfl
@[simp] theorem afterTransaction_fps (rq : BusRequest) (ans : BusAnswer) (s : State) : (afterTransaction rq ans s).fps = s.fps := rfl
@[simp] theorem afterTransaction_pix (rq : BusRequest) (ans : BusAnswer) (s : State) : (afterTransaction rq ans s).pix = s.pix := rfl
@[simp] theorem afterTransaction_therm (rq : BusRequest) (ans : BusAnswer) (s : State) : (afterTransaction rq ans s).therm = s.therm := rfl
@[simp] theorem afterTransaction_itab (rq : BusRequest) (ans : BusAnswer) (s : State) : (afterTransaction rq ans s).itab = s.itab := rfl
@[simp] theorem afterTransaction_busy (rq : BusRequest) (ans : BusAnswer) (s : State) : (afterTransaction rq ans s).busy = s.busy := rfl
@[simp] theorem afterTransaction_resp (rq : BusRequest) (ans : BusAnswer) (s : State) : (afterTransaction rq ans s).resp = s.resp := rfl
@[simp] theorem afterTransaction_modeCodes (rq : BusRequest) (ans : BusAnswer) (s : State) : (afterTransaction rq ans s).modeCodes = s.modeCodes := rfl
@[simp] theorem afterTransaction_port (rq : BusRequest) (ans : BusAnswer) (s : State) : (afterTransaction rq ans s).port = s.port := rfl
@[simp] theorem afterTransaction_pos (rq : BusRequest) (ans : BusAnswer) (s : State) : (afterTransaction rq ans s).pos = s.pos := rfl
@[simp] theorem afterTransaction_trace (rq : BusRequest) (ans : BusAnswer) (s : State) : (afterTransaction rq ans s).trace = s.trace ++ [busEvent rq ans] := rfl
@[simp] theorem afterTransaction_oracle (rq : BusRequest) (ans : BusAnswer) (s : State) : (afterTransaction rq ans s).oracle = s.oracle.after rq ans := rfl

/-! ## accept -/

@[simp] theorem accept_devAddr (rest : List Word) (s : State) : (accept rest s).devAddr = s.devAddr := rfl
@[simp] theorem accept_mode (rest : List Word) (s : State) : (accept rest s).mode = s.mode := rfl
@[simp] theorem accept_fps (rest : List Word) (s : State) : (accept rest s).fps = s.fps := rfl
@[simp] theorem accept_pix (rest : List Word) (s : State) : (accept rest s).pix = s.pix := rfl
@[simp] theorem accept_therm (rest : List Word) (s : State) : (accept rest s).therm = s.therm := rfl
@[simp] theorem accept_itab (rest : List Word) (s : State) : (accept rest s).itab = s.itab := rfl
@[simp] theorem accept_busy (rest : List Word) (s : State) : (accept rest s).busy = .busy := rfl
@[simp] theorem accept_resp (rest : List Word) (s : State) : (accept rest s).resp = s.resp := rfl
@[simp] theorem accept_modeCodes (rest : List Word) (s : State) : (accept rest s).modeCodes = s.modeCodes := rfl
@[simp] theorem accept_port (rest : List Word) (s : State) : (accept rest s).port = rest := rfl
@[simp] theorem accept_pos (rest : List Word) (s : State) : (accept rest s).pos = s.pos + 1 := rfl
@[simp] theorem accept_trace (rest : List Word) (s : State) : (accept rest s).trace = s.trace := rfl
@[simp] theorem accept_oracle (rest : List Word) (s : State) : (accept rest s).oracle = s.oracle := rfl

/-! ## Ends of a command and cells of the matrix -/

@[simp] theorem respond_eq (p : Payload) (s : State) : respond p s = deliver ⟨.ok, p⟩ s := rfl
@[simp] theorem raiseError_eq (e : Error) (s : State) : raiseError e s = deliver e.response s := rfl
@[simp] theorem refuseWord_eq (s : State) : refuseWord s = deliver ⟨.illegalCommand, .none⟩ s := rfl

theorem State.setPixel_cell (i j : Fin 64) (q : Int) (s : State) :
    (s.setPixel i q).pix[j.val] = if i = j then some q else s.pix[j.val] := by
  simp [Vector.getElem_set, Fin.ext_iff]

end Sys2Proof.Machine
end

