-- ==== Sys2Proof/Laws/Ops.lean ====
section
/-! SUPPORT. What each shared operation can do, said once. -/

namespace Sys2Proof.Machine

/-! ## Transactions -/

theorem memRead_fault {a : Byte} {s : State} (k : Byte → State → State)
    (h : busAnswer s (.read s.devAddr a) = .fault) :
    memRead a s k = deliver ⟨.busError, .buserr a .read⟩ (afterTransaction (.read s.devAddr a) .fault s) := by
  simp [memRead, h, Error.response]

theorem memRead_ok {a b : Byte} {s : State} (k : Byte → State → State)
    (h : busAnswer s (.read s.devAddr a) = .ok b) :
    memRead a s k = k b (afterTransaction (.read s.devAddr a) (.ok b) s) := by
  simp [memRead, h]

theorem memWrite_fault {a v : Byte} {s : State} (k : State → State)
    (h : busAnswer s (.write s.devAddr a v) = .fault) :
    memWrite a v s k = deliver ⟨.busError, .buserr a .write⟩ (afterTransaction (.write s.devAddr a v) .fault s) := by
  simp [memWrite, h, Error.response]

theorem memWrite_ok {a v : Byte} {s : State} (k : State → State)
    (h : busAnswer s (.write s.devAddr a v) ≠ .fault) :
    memWrite a v s k = k (afterTransaction (.write s.devAddr a v) (.ok v) s) := by
  cases hb : busAnswer s (.write s.devAddr a v) with
  | fault => exact absurd hb h
  | ok b => simp [memWrite, hb]

/-- What holds of the end after a fault and of the continuation for every byte holds of the read. -/
theorem memRead_induct {P : State → Prop} {a : Byte} {s : State} {k : Byte → State → State}
    (hf : busAnswer s (.read s.devAddr a) = .fault →
      P (deliver ⟨.busError, .buserr a .read⟩ (afterTransaction (.read s.devAddr a) .fault s)))
    (hk : ∀ b, busAnswer s (.read s.devAddr a) = .ok b → P (k b (afterTransaction (.read s.devAddr a) (.ok b) s))) :
    P (memRead a s k) := by
  cases h : busAnswer s (.read s.devAddr a) with
  | fault => rw [memRead_fault k h]; exact hf h
  | ok b => rw [memRead_ok k h]; exact hk b h

/-- The same for a write. -/
theorem memWrite_induct {P : State → Prop} {a v : Byte} {s : State} {k : State → State}
    (hf : busAnswer s (.write s.devAddr a v) = .fault →
      P (deliver ⟨.busError, .buserr a .write⟩ (afterTransaction (.write s.devAddr a v) .fault s)))
    (hk : busAnswer s (.write s.devAddr a v) ≠ .fault → P (k (afterTransaction (.write s.devAddr a v) (.ok v) s))) :
    P (memWrite a v s k) := by
  by_cases h : busAnswer s (.write s.devAddr a v) = .fault
  · rw [memWrite_fault k h]; exact hf h
  · rw [memWrite_ok k h]; exact hk h

/-! ## The sleep guard -/

theorem sleepGuard_asleep {s : State} (k : State → State) (h : s.mode = .known .sleep) :
    sleepGuard false s k = deliver ⟨.deviceAsleep, .none⟩ s := by
  simp [sleepGuard, h, Error.response]

theorem sleepGuard_awake {s : State} (w : Bool) (k : State → State) (h : s.mode ≠ .known .sleep) :
    sleepGuard w s k = k s := by
  simp [sleepGuard, h]

theorem sleepGuard_wake (s : State) (k : State → State) : sleepGuard true s k = k s := by
  simp [sleepGuard]

/-- What holds of DeviceAsleep and of the continuation holds of the guarded command. -/
theorem sleepGuard_induct {P : State → Prop} {w : Bool} {s : State} {k : State → State}
    (ha : s.mode = .known .sleep → w = false → P (deliver ⟨.deviceAsleep, .none⟩ s))
    (hk : s.mode ≠ .known .sleep ∨ w = true → P (k s)) : P (sleepGuard w s k) := by
  by_cases h : s.mode = .known .sleep
  · cases w
    · rw [sleepGuard_asleep k h]; exact ha h rfl
    · rw [sleepGuard_wake]; exact hk (.inr rfl)
  · rw [sleepGuard_awake w k h]; exact hk (.inl h)

/-! ## Fetch and step -/

theorem fetch_busy {s : State} (h : s.busy = .busy) : fetch s = none := by
  simp [fetch, h]

theorem fetch_empty {s : State} (h : s.port = []) : fetch s = none := by
  cases hb : s.busy <;> simp [fetch, h, hb]

theorem fetch_some {s : State} {w : Word} {rest : List Word} (hb : s.busy = .idle) (hp : s.port = w :: rest) :
    fetch s = some (w, accept rest s) := by
  simp [fetch, hb, hp]

/-- What a fetch says of the state, once and for all. -/
theorem fetch_cases (s : State) :
    (fetch s = none ∧ (s.busy = .busy ∨ s.port = [])) ∨
    ∃ w rest, s.busy = .idle ∧ s.port = w :: rest ∧ fetch s = some (w, accept rest s) := by
  cases hb : s.busy with
  | busy => exact .inl ⟨fetch_busy hb, .inl rfl⟩
  | idle =>
    cases hp : s.port with
    | nil => exact .inl ⟨fetch_empty hp, .inr rfl⟩
    | cons w rest => exact .inr ⟨w, rest, rfl, rfl, fetch_some hb hp⟩

/-- Every command answers a next state: no meaning faults or refuses. -/
theorem exec_next (i : Instr) (s : State) : ∃ t, exec i s = .next t := by
  cases i <;> exact ⟨_, rfl⟩

end Sys2Proof.Machine
end

