-- ==== Sys2Proof/Laws/Commands.lean ====
section
/-! SUPPORT. The shared operations in the claims' words, the codec as plain arithmetic, and the loops of the multi-transaction
commands: what each does when all its transactions succeed, when one fails, and what it keeps. -/

namespace Sys2Proof.Machine

/-! ## The claims' words -/

theorem deliver_eq_ended (r : Response) (s : State) : deliver r s = ended s r := rfl

theorem afterTransaction_readOk (s : State) (a b : Byte) :
    afterTransaction (.read s.devAddr a) (.ok b) s = readDone s a b := rfl

theorem afterTransaction_readFault (s : State) (a : Byte) :
    afterTransaction (.read s.devAddr a) .fault s = readFailed s a := rfl

theorem afterTransaction_writeOk (s : State) (a v : Byte) :
    afterTransaction (.write s.devAddr a v) (.ok v) s = writeDone s a v := rfl

theorem afterTransaction_writeFault (s : State) (a v : Byte) :
    afterTransaction (.write s.devAddr a v) .fault s = writeFailed s a v := rfl

theorem decodePixelFn_eq_pixelOf (lsb msb : Byte) : decodePixelFn lsb msb = pixelOf lsb msb := by
  have hl := lsb.isLt
  rw [decodePixelFn_eq]
  unfold pixelOf
  simp only
  split <;> split <;> omega

theorem thresholdField_lt (t : Int) : thresholdField t < 4096 := by
  unfold thresholdField
  split <;> omega

theorem encodeThreshFn_eq (t : Int) : encodeThreshFn t = (thresholdLow t, thresholdHigh t) := by
  have h : (if 0 ≤ t then BitVec.ofNat 12 ((t.natAbs + 12) / 25) else ~~~(BitVec.ofNat 12 ((t.natAbs + 12) / 25)) + 1 :
      BitVec 12).toNat = thresholdField t := by
    unfold thresholdField thresholdMagnitude
    split
    · simp
    · simp [BitVec.toNat_add, BitVec.toNat_not]; omega
  unfold encodeThreshFn thresholdLow thresholdHigh
  rw [← h]
  simp only [Prod.mk.injEq]
  constructor <;> apply BitVec.eq_of_toNat_eq <;> simp [BitVec.extractLsb'_toNat, Nat.shiftRight_eq_div_pow]
  omega

/-- The cell's pair (40_codec.md R130). -/
theorem pixelRegisterPairFn_cell (i : Fin 64) : pixelRegisterPairFn (i.val / 8) (i.val % 8) =
    (BitVec.ofNat 8 (0x80 + 2 * i.val), BitVec.ofNat 8 (0x81 + 2 * i.val)) := by
  revert i; decide

theorem regTableRow_eq (r : Fin 8) : regTableRow r = BitVec.ofNat 8 (0x10 + r.val) := by
  revert r; decide

/-! ## The oracle -/

theorem BusOracle.after_wellFormed {o : BusOracle} (rq : BusRequest) (ans : BusAnswer) (h : o.WellFormed) :
    (o.after rq ans).WellFormed := by
  cases o with
  | unconstrained => trivial
  | reference rd =>
    simp only [BusOracle.after, BusOracle.WellFormed, RefDevice.after] at *
    split
    · exact Memory.write_wf _ _ h
    · exact h

/-! ## Writes one after another -/

theorem memWriteSeq_ok : ∀ (ws : List (Byte × Byte)) (s : State) (k : State → State), servesWrites ws s →
    memWriteSeq ws s k = k (afterWrites ws s)
  | [], _, _, _ => rfl
  | (a, v) :: ws, s, k, h => by
    rw [memWriteSeq, memWrite_ok _ h.1, afterTransaction_writeOk]
    exact memWriteSeq_ok ws _ _ h.2

theorem memWriteSeq_fault : ∀ (ws : List (Byte × Byte)) (n : Nat) (a v : Byte) (s : State) (k : State → State),
    ws[n]? = some (a, v) → servesWrites (ws.take n) s → failsWrite (afterWrites (ws.take n) s) a v →
    memWriteSeq ws s k = ended (writeFailed (afterWrites (ws.take n) s) a v) ⟨.busError, .buserr a .write⟩
  | [], _, _, _, _, _, h, _, _ => by simp at h
  | (a', v') :: ws, 0, a, v, s, k, h, _, hf => by
    simp at h
    obtain ⟨rfl, rfl⟩ := h
    rw [memWriteSeq, memWrite_fault _ (show failsWrite s a' v' from hf)]
    rfl
  | (a', v') :: ws, n + 1, a, v, s, k, h, hs, hf => by
    rw [memWriteSeq, memWrite_ok _ hs.1, afterTransaction_writeOk]
    exact memWriteSeq_fault ws n a v _ _ (by simpa using h) hs.2 hf

/-- Q: what every transaction keeps. P: what holds at the end. -/
theorem memWriteSeq_induct {Q P : State → Prop} {k : State → State}
    (tx : ∀ rq ans u, Q u → Q (afterTransaction rq ans u))
    (fin : ∀ a u, Q u → P (deliver ⟨.busError, .buserr a .write⟩ u)) (hk : ∀ u, Q u → P (k u)) :
    ∀ (ws : List (Byte × Byte)) (s : State), Q s → P (memWriteSeq ws s k)
  | [], s, hs => hk s hs
  | (_, _) :: ws, _, hs =>
    memWrite_induct (fun _ => fin _ _ (tx _ _ _ hs)) (fun _ => memWriteSeq_induct tx fin hk ws _ (tx _ _ _ hs))

/-! ## The rows of the interrupt table -/

/-- The readings of the given rows. -/
def rowReadsOf (rows : Fin 8 → Byte) (l : List (Fin 8)) : List (Byte × Byte) :=
  l.map fun r => (BitVec.ofNat 8 (0x10 + r.val), rows r)

/-- The rows once the given ones have been read. -/
def rowsFilled (rows : Fin 8 → Byte) (l : List (Fin 8)) (v : Vector Byte 8) : Vector Byte 8 :=
  l.foldl (fun (v : Vector Byte 8) (r : Fin 8) => v.set r.val (rows r)) v

theorem readRows_ok (rows : Fin 8 → Byte) : ∀ (l : List (Fin 8)) (v : Vector Byte 8) (s : State)
    (k : Vector Byte 8 → State → State), servesReads (rowReadsOf rows l) s →
    readRows l v s k = k (rowsFilled rows l v) (afterReads (rowReadsOf rows l) s)
  | [], _, _, _, _ => rfl
  | r :: l, v, s, k, h => by
    simp only [readRows, regTableRow_eq]
    rw [memRead_ok _ h.1, afterTransaction_readOk]
    exact readRows_ok rows l _ _ _ h.2

theorem readRows_fault (rows : Fin 8 → Byte) : ∀ (l : List (Fin 8)) (v : Vector Byte 8) (n : Nat) (a b : Byte) (s : State)
    (k : Vector Byte 8 → State → State), (rowReadsOf rows l)[n]? = some (a, b) →
    servesReads ((rowReadsOf rows l).take n) s → failsRead (afterReads ((rowReadsOf rows l).take n) s) a →
    readRows l v s k = ended (readFailed (afterReads ((rowReadsOf rows l).take n) s) a) ⟨.busError, .buserr a .read⟩
  | [], _, _, _, _, _, _, h, _, _ => by simp [rowReadsOf] at h
  | r :: l, v, 0, a, b, s, k, h, _, hf => by
    simp [rowReadsOf] at h
    obtain ⟨rfl, rfl⟩ := h
    simp only [readRows, regTableRow_eq]
    rw [memRead_fault _ (show failsRead s _ from hf)]
    rfl
  | r :: l, v, n + 1, a, b, s, k, h, hs, hf => by
    simp only [readRows, regTableRow_eq]
    rw [memRead_ok _ hs.1, afterTransaction_readOk]
    exact readRows_fault rows l _ n a b _ _ (by simpa [rowReadsOf] using h) hs.2 hf

theorem rowsFilled_get (rows : Fin 8 → Byte) : ∀ (l : List (Fin 8)) (v : Vector Byte 8) (r : Fin 8), r ∈ l →
    (rowsFilled rows l v)[r.val] = rows r := by
  intro l
  induction l using List.reverseRecOn with
  | nil => intro v r h; cases h
  | append_singleton l a ih =>
    intro v r h
    simp only [rowsFilled, List.foldl_append, List.foldl_cons, List.foldl_nil, Vector.getElem_set]
    split
    · next e => rw [Fin.ext_iff.2 e]
    · next e =>
      refine ih v r ?_
      rcases List.mem_append.1 h with h | h
      · exact h
      · rw [List.mem_singleton] at h
        exact absurd (by rw [h]) e

theorem readRows_induct {Q P : State → Prop} {k : Vector Byte 8 → State → State}
    (tx : ∀ rq ans u, Q u → Q (afterTransaction rq ans u))
    (fin : ∀ a u, Q u → P (deliver ⟨.busError, .buserr a .read⟩ u)) (hk : ∀ v u, Q u → P (k v u)) :
    ∀ (l : List (Fin 8)) (v : Vector Byte 8) (s : State), Q s → P (readRows l v s k)
  | [], v, s, hs => hk v s hs
  | _ :: l, _, _, hs =>
    memRead_induct (fun _ => fin _ _ (tx _ _ _ hs)) (fun _ _ => readRows_induct tx fin hk l _ _ (tx _ _ _ hs))

/-! ## The cells of the matrix -/

/-- The readings of the given cells. -/
def cellReads (lo hi : Fin 64 → Byte) (l : List (Fin 64)) : List (Byte × Byte) :=
  l.flatMap fun i => [(BitVec.ofNat 8 (0x80 + 2 * i.val), lo i), (BitVec.ofNat 8 (0x81 + 2 * i.val), hi i)]

/-- The state once the given cells are committed. -/
def cellsCommitted (lo hi : Fin 64 → Byte) (l : List (Fin 64)) (s : State) : State :=
  l.foldl (fun s i => s.setPixel i (pixelOf (lo i) (hi i))) s

theorem afterReads_setPixel (i : Fin 64) (q : Int) : ∀ (l : List (Byte × Byte)) (s : State),
    afterReads l (s.setPixel i q) = (afterReads l s).setPixel i q
  | [], _ => rfl
  | (a, b) :: l, s => afterReads_setPixel i q l (readDone s a b)

theorem servesReads_setPixel (i : Fin 64) (q : Int) : ∀ (l : List (Byte × Byte)) (s : State),
    servesReads l (s.setPixel i q) ↔ servesReads l s
  | [], _ => Iff.rfl
  | (a, b) :: l, s => and_congr Iff.rfl (servesReads_setPixel i q l (readDone s a b))

theorem afterReads_pix : ∀ (l : List (Byte × Byte)) (s : State), (afterReads l s).pix = s.pix
  | [], _ => rfl
  | (a, b) :: l, s => afterReads_pix l (readDone s a b)

theorem updateCells_ok (lo hi : Fin 64 → Byte) : ∀ (l : List (Fin 64)) (s : State) (k : State → State),
    servesReads (cellReads lo hi l) s → updateCells l s k = k (cellsCommitted lo hi l (afterReads (cellReads lo hi l) s))
  | [], _, _, _ => rfl
  | i :: l, s, k, h => by
    simp only [cellReads, List.flatMap_cons, List.cons_append, List.nil_append, servesReads] at h
    simp only [updateCells, pixelRegisterPairFn_cell]
    rw [memRead_ok _ h.1, afterTransaction_readOk, memRead_ok _ h.2.1, afterTransaction_readOk,
      updateCells_ok lo hi l _ _ (by rw [servesReads_setPixel]; exact h.2.2), afterReads_setPixel, decodePixelFn_eq_pixelOf]
    rfl

/-- When the n-th reading fails, the cells whose pairs were complete are committed: the first n / 2. -/
theorem updateCells_fault (lo hi : Fin 64 → Byte) : ∀ (l : List (Fin 64)) (n : Nat) (a b : Byte) (s : State) (k : State → State),
    (cellReads lo hi l)[n]? = some (a, b) → servesReads ((cellReads lo hi l).take n) s →
    failsRead (afterReads ((cellReads lo hi l).take n) s) a →
    updateCells l s k = ended (readFailed (cellsCommitted lo hi (l.take (n / 2)) (afterReads ((cellReads lo hi l).take n) s)) a)
      ⟨.busError, .buserr a .read⟩
  | [], _, _, _, _, _, h, _, _ => by simp [cellReads] at h
  | i :: l, 0, a, b, s, k, h, _, hf => by
    simp [cellReads] at h
    obtain ⟨rfl, rfl⟩ := h
    simp only [updateCells, pixelRegisterPairFn_cell]
    rw [memRead_fault _ (show failsRead s _ from hf)]
    rfl
  | i :: l, 1, a, b, s, k, h, hs, hf => by
    simp [cellReads] at h
    obtain ⟨rfl, rfl⟩ := h
    have hs1 : answersRead s _ _ := hs.1
    simp only [updateCells, pixelRegisterPairFn_cell]
    rw [memRead_ok _ hs1, afterTransaction_readOk,
      memRead_fault _ (show failsRead (readDone s (BitVec.ofNat 8 (128 + 2 * i.val)) (lo i)) _ from hf)]
    rfl
  | i :: l, n + 2, a, b, s, k, h, hs, hf => by
    have e : (n + 2) / 2 = n / 2 + 1 := by omega
    simp only [cellReads, List.flatMap_cons, List.cons_append, List.nil_append, List.take_succ_cons, servesReads,
      List.getElem?_cons_succ] at h hs
    simp only [updateCells, pixelRegisterPairFn_cell]
    rw [memRead_ok _ hs.1, afterTransaction_readOk, memRead_ok _ hs.2.1, afterTransaction_readOk,
      updateCells_fault lo hi l n a b _ _ h (by rw [servesReads_setPixel]; exact hs.2.2) (by rw [afterReads_setPixel]; exact hf),
      e, afterReads_setPixel, decodePixelFn_eq_pixelOf]
    rfl

theorem cellsCommitted_pix (lo hi : Fin 64 → Byte) : ∀ (l : List (Fin 64)) (s : State) (j : Fin 64),
    (cellsCommitted lo hi l s).pix[j.val] = if j ∈ l then some (pixelOf (lo j) (hi j)) else s.pix[j.val]
  | [], _, _ => by simp [cellsCommitted]
  | i :: l, s, j => by
    rw [show cellsCommitted lo hi (i :: l) s = cellsCommitted lo hi l (s.setPixel i (pixelOf (lo i) (hi i))) from rfl,
      cellsCommitted_pix lo hi l, State.setPixel_cell]
    by_cases h : j ∈ l
    · simp [h]
    · by_cases h2 : i = j
      · subst h2; simp [h]
      · simp [h, h2, Ne.symm h2]

theorem cellsCommitted_frame (lo hi : Fin 64 → Byte) : ∀ (l : List (Fin 64)) (s : State),
    cellsCommitted lo hi l s = { s with pix := (cellsCommitted lo hi l s).pix }
  | [], _ => rfl
  | i :: l, s => by
    rw [show cellsCommitted lo hi (i :: l) s = cellsCommitted lo hi l (s.setPixel i (pixelOf (lo i) (hi i))) from rfl]
    conv_lhs => rw [cellsCommitted_frame lo hi l]
    rfl

theorem updateCells_induct {Q P : State → Prop} {k : State → State}
    (tx : ∀ rq ans u, Q u → Q (afterTransaction rq ans u)) (cell : ∀ i q u, PixelInRange q → Q u → Q (State.setPixel i q u))
    (fin : ∀ a u, Q u → P (deliver ⟨.busError, .buserr a .read⟩ u)) (hk : ∀ u, Q u → P (k u)) :
    ∀ (l : List (Fin 64)) (s : State), Q s → P (updateCells l s k)
  | [], s, hs => hk s hs
  | _ :: l, _, hs =>
    memRead_induct (fun _ => fin _ _ (tx _ _ _ hs)) fun _ _ =>
      memRead_induct (fun _ => fin _ _ (tx _ _ _ (tx _ _ _ hs))) fun _ _ =>
        updateCells_induct tx cell fin hk l _ (cell _ _ _ (decodePixelFn_bounds _ _) (tx _ _ _ (tx _ _ _ hs)))

end Sys2Proof.Machine
end

