-- ==== Sys2Proof/Laws/Decode.lean ====
section
/-! SUPPORT. Cutting a word into fields and putting fields together are inverse; the opcode table's rows do not overlap. -/

namespace Sys2Proof

/-- A word is its fields (30_encoding.md R90, R91). -/
theorem Command.toWord_ofWord (w : Word) : (Command.ofWord w).toWord = w := by
  apply BitVec.eq_of_getLsbD_eq
  intro i hi
  simp only [Command.ofWord, Command.toWord, BitVec.getLsbD_or, BitVec.getLsbD_shiftLeft, BitVec.getLsbD_setWidth,
    BitVec.getLsbD_extractLsb']
  by_cases h1 : i < 8
  · simp [show i < 56 by omega, show i < 40 by omega, show i < 24 by omega, h1, hi]
  · by_cases h2 : i < 24
    · have : 8 + (i - 8) = i := by omega
      simp [show i < 56 by omega, show i < 40 by omega, h1, h2, hi, this, show i - 8 < 16 by omega, show i - 8 < 64 by omega]
    · by_cases h3 : i < 40
      · have : 24 + (i - 24) = i := by omega
        simp [show i < 56 by omega, h1, h2, h3, hi, this, show i - 24 < 16 by omega, show i - 24 < 64 by omega,
          show ¬ i - 8 < 16 by omega]
      · by_cases h4 : i < 56
        · have : 40 + (i - 40) = i := by omega
          simp [h1, h2, h3, h4, hi, this, show i - 40 < 16 by omega, show i - 40 < 64 by omega,
            show ¬ i - 8 < 16 by omega, show ¬ i - 24 < 16 by omega]
        · have : 56 + (i - 56) = i := by omega
          simp [h1, h2, h3, h4, hi, this, show i - 56 < 8 by omega, show i - 56 < 64 by omega,
            show ¬ i - 8 < 16 by omega, show ¬ i - 24 < 16 by omega, show ¬ i - 40 < 16 by omega]

/-- The fields of an assembled word are the fields it was assembled from. -/
theorem Command.ofWord_toWord (c : Command) : Command.ofWord c.toWord = c := by
  rcases c with ⟨op, a, b, c, z⟩
  simp only [Command.ofWord, Command.toWord, Command.mk.injEq]
  refine ⟨?_, ?_, ?_, ?_, ?_⟩ <;> apply BitVec.eq_of_getLsbD_eq <;> intro i hi <;>
    simp only [BitVec.getLsbD_or, BitVec.getLsbD_shiftLeft, BitVec.getLsbD_setWidth, BitVec.getLsbD_extractLsb']
  · simp [hi, show 56 + i < 64 by omega, BitVec.getLsbD_of_ge a (56 + i - 40) (by omega),
      BitVec.getLsbD_of_ge b (56 + i - 24) (by omega), BitVec.getLsbD_of_ge c (56 + i - 8) (by omega),
      BitVec.getLsbD_of_ge z (56 + i) (by omega)]
    omega
  · simp [hi, show 40 + i < 64 by omega, show 40 + i < 56 by omega, BitVec.getLsbD_of_ge b (40 + i - 24) (by omega),
      BitVec.getLsbD_of_ge c (40 + i - 8) (by omega), BitVec.getLsbD_of_ge z (40 + i) (by omega)]
    omega
  · simp [hi, show 24 + i < 64 by omega, show 24 + i < 56 by omega, show 24 + i < 40 by omega,
      BitVec.getLsbD_of_ge c (24 + i - 8) (by omega), BitVec.getLsbD_of_ge z (24 + i) (by omega)]
    omega
  · simp [hi, show 8 + i < 64 by omega, show 8 + i < 56 by omega, show 8 + i < 40 by omega, show 8 + i < 24 by omega]
    omega
  · simp [hi, show i < 64 by omega, show i < 56 by omega, show i < 40 by omega, show i < 24 by omega]

/-- No word fits two rows of the table (30_encoding.md R96). -/
theorem opcodeTable_rows_disjoint :
    opcodeTable.Pairwise (fun r q => r.mask &&& q.mask &&& (r.pattern ^^^ q.pattern) ≠ 0#64) := by
  decide

@[simp] theorem byteOperand_byteField (b : Byte) : byteOperand (byteField b) = b := by
  apply BitVec.eq_of_getLsbD_eq
  intro i hi
  simp [byteOperand, byteField, hi, show i < 16 by omega]

@[simp] theorem boolOperand_boolField (b : Bool) : boolOperand (boolField b) = b := by
  cases b <;> rfl

theorem byteField_upper (b : Byte) : (byteField b).extractLsb' 8 8 = 0#8 := by
  apply BitVec.eq_of_getLsbD_eq
  intro i hi
  simp [byteField, hi]

theorem boolField_upper (b : Bool) : (boolField b).extractLsb' 1 15 = 0#15 := by
  cases b <;> rfl

/-- A word's value from its fields (30_encoding.md R91). -/
theorem Command.toWord_toNat (c : Command) : c.toWord.toNat =
    c.op.toNat * 2 ^ 56 + c.a.toNat * 2 ^ 40 + c.b.toNat * 2 ^ 24 + c.c.toNat * 2 ^ 8 + c.z.toNat := by
  rcases c with ⟨op, a, b, c, z⟩
  have h1 := op.isLt
  have h2 := a.isLt
  have h3 := b.isLt
  have h4 := c.isLt
  have h5 := z.isLt
  have e : ∀ (n k : Nat) (x : BitVec n), x.toNat * 2 ^ k < 2 ^ 64 → n ≤ 64 →
      (x.setWidth 64 <<< k : Word).toNat = x.toNat * 2 ^ k := by
    intro n k x hx hn
    rw [BitVec.toNat_shiftLeft, BitVec.toNat_setWidth_of_le hn, Nat.shiftLeft_eq, Nat.mod_eq_of_lt hx]
  have s1 : ∀ u v k : Nat, v < 2 ^ k → u * 2 ^ k ||| v = u * 2 ^ k + v := by
    intro u v k hv
    rw [← Nat.shiftLeft_eq, Nat.shiftLeft_add_eq_or_of_lt hv]
  simp only [Command.toWord, BitVec.toNat_or]
  rw [e 8 56 op (by omega) (by omega), e 16 40 a (by omega) (by omega), e 16 24 b (by omega) (by omega),
    e 16 8 c (by omega) (by omega), BitVec.toNat_setWidth_of_le (by omega), s1 _ _ 56 (by omega),
    show op.toNat * 2 ^ 56 + a.toNat * 2 ^ 40 = (op.toNat * 2 ^ 16 + a.toNat) * 2 ^ 40 by ring, s1 _ _ 40 (by omega),
    show (op.toNat * 2 ^ 16 + a.toNat) * 2 ^ 40 + b.toNat * 2 ^ 24 =
      ((op.toNat * 2 ^ 16 + a.toNat) * 2 ^ 16 + b.toNat) * 2 ^ 24 by ring, s1 _ _ 24 (by omega),
    show ((op.toNat * 2 ^ 16 + a.toNat) * 2 ^ 16 + b.toNat) * 2 ^ 24 + c.toNat * 2 ^ 8 =
      (((op.toNat * 2 ^ 16 + a.toNat) * 2 ^ 16 + b.toNat) * 2 ^ 16 + c.toNat) * 2 ^ 8 by ring, s1 _ _ 8 (by omega)]

/-- The checks of 30_encoding.md R96, once and for all. -/
theorem Command.illegal?_none {c : Command} (h : c.illegal? = none) :
    ∃ f, formatOf c.op = some f ∧ c.z = 0#8 ∧ fieldIllegal? .a f.a c.a = none ∧ fieldIllegal? .b f.b c.b = none ∧
      fieldIllegal? .c f.c c.c = none := by
  unfold Command.illegal? at h
  split at h
  · cases h
  · next f hf =>
    split at h
    · next hz =>
      split at h
      · cases h
      · next ha =>
        split at h
        · cases h
        · next hb => exact ⟨f, hf, hz, ha, hb, h⟩
    · cases h

/-- No word is covered by two rows. -/
theorem opcodeTable_row_unique {w : Word} {r q : TableRow} (hr : r ∈ opcodeTable) (hq : q ∈ opcodeTable)
    (h1 : r.covers w = true) (h2 : q.covers w = true) : r = q := by
  have key : ∀ r ∈ opcodeTable, ∀ q ∈ opcodeTable, r = q ∨ r.mask &&& q.mask &&& (r.pattern ^^^ q.pattern) ≠ 0#64 := by decide
  rcases key r hr q hq with h | h
  · exact h
  · exfalso
    apply h
    simp only [TableRow.covers, beq_iff_eq] at h1 h2
    rw [← h1, ← h2]
    apply BitVec.eq_of_getLsbD_eq
    intro i hi
    simp only [BitVec.getLsbD_and, BitVec.getLsbD_xor]
    cases w.getLsbD i <;> cases r.mask.getLsbD i <;> cases q.mask.getLsbD i <;> simp

theorem byteField_byteOperand {f : Field} (h : f.extractLsb' 8 8 = 0#8) : byteField (byteOperand f) = f := by
  apply BitVec.eq_of_getLsbD_eq
  intro i hi
  simp only [byteField, byteOperand, BitVec.getLsbD_setWidth, BitVec.getLsbD_extractLsb']
  by_cases h8 : i < 8
  · simp [h8, hi]
  · have := congrArg (fun v => BitVec.getLsbD v (i - 8)) h
    simp [show i - 8 < 8 by omega, show 8 + (i - 8) = i by omega] at this
    simp [h8, this]

theorem boolField_boolOperand {f : Field} (h : f.extractLsb' 1 15 = 0#15) : boolField (boolOperand f) = f := by
  have hz : ∀ i, 1 ≤ i → f.getLsbD i = false := by
    intro i hi
    by_cases h16 : i < 16
    · have := congrArg (fun v => BitVec.getLsbD v (i - 1)) h
      simpa [show i - 1 < 15 by omega, show 1 + (i - 1) = i by omega] using this
    · exact BitVec.getLsbD_of_ge _ _ (by omega)
  apply BitVec.eq_of_getLsbD_eq
  intro i hi
  rcases Nat.eq_zero_or_pos i with rfl | hp
  · unfold boolField boolOperand
    cases hb : f.getLsbD 0 <;> rfl
  · rw [hz i hp]
    have h0 : i ≠ 0 := by omega
    unfold boolField boolOperand
    split <;> simp [h0]

end Sys2Proof
end

