-- ==== Sys2Proof/Laws/Operands.lean ====
section
/-! SUPPORT. The code operands: which field values name a mode, an interrupt mode, a frame rate (30_encoding.md R94). -/

namespace Sys2Proof.Machine

theorem setWidth_field_inj (x y : Byte) : (x.setWidth 16 : Field) = y.setWidth 16 ↔ x = y := by
  have hx := x.isLt
  have hy := y.isLt
  rw [← BitVec.toNat_inj, ← BitVec.toNat_inj]
  simp only [BitVec.toNat_setWidth]
  omega

theorem field_eq_zero_iff (f : Field) : f = 0#16 ↔ f.toNat = 0 := by
  rw [← BitVec.toNat_inj]; rfl

theorem field_eq_one_iff (f : Field) : f = 1#16 ↔ f.toNat = 1 := by
  rw [← BitVec.toNat_inj]; rfl

/-- The mode found for a code has that code. -/
theorem modeOfCode?_some {codes : ModeCodes} {code : Field} {m : DeviceMode} (h : modeOfCode? codes code = some m) :
    code = (codes.code m).setWidth 16 := by
  unfold modeOfCode? at h
  split at h
  · next hc => injection h with h; subst h; exact hc
  · split at h
    · next hc => injection h with h; subst h; exact hc
    · split at h
      · next hc => injection h with h; subst h; exact hc
      · split at h
        · next hc => injection h with h; subst h; exact hc
        · cases h

/-- No mode is found exactly for a field that is no mode's code. -/
theorem modeOfCode?_none {codes : ModeCodes} {code : Field} :
    modeOfCode? codes code = none ↔ ∀ m, code ≠ (codes.code m).setWidth 16 := by
  constructor
  · intro h
    unfold modeOfCode? at h
    split at h <;> [cases h; skip]
    split at h <;> [cases h; skip]
    split at h <;> [cases h; skip]
    split at h <;> [cases h; skip]
    intro m
    cases m <;> assumption
  · intro h
    unfold modeOfCode?
    rw [if_neg (h _), if_neg (h _), if_neg (h _), if_neg (h _)]

/-- With an injective MODE_CODE (00_scope.md R8) the mode found for a mode's code is that mode. -/
theorem modeOfCode?_code {codes : ModeCodes} (hi : codes.Injective) (m : DeviceMode) :
    modeOfCode? codes ((codes.code m).setWidth 16) = some m := by
  cases h : modeOfCode? codes ((codes.code m).setWidth 16) with
  | none => exact absurd rfl (modeOfCode?_none.1 h m)
  | some n =>
    have hc := modeOfCode?_some h
    rw [setWidth_field_inj] at hc
    rw [hi _ _ hc]

theorem interruptModeOfCode?_none {code : Field} : interruptModeOfCode? code = none ↔ 1 < code.toNat := by
  unfold interruptModeOfCode?
  simp only [field_eq_zero_iff, field_eq_one_iff]
  split <;> [skip; split] <;> simp <;> omega

theorem fpsModeOfCode?_none {code : Field} : fpsModeOfCode? code = none ↔ 1 < code.toNat := by
  unfold fpsModeOfCode?
  simp only [field_eq_zero_iff, field_eq_one_iff]
  split <;> [skip; split] <;> simp <;> omega

end Sys2Proof.Machine
end

