-- ==== Sys2Proof/Laws/PerInstr.lean ====
section
/-! SUPPORT. Facts made per command. Family `EncodeFields`: the encoded word, cut into its fields (30_encoding.md R91), is the
command's fields, so no operand bit is dropped or moved by the word. -/

namespace Sys2Proof.Laws.EncodeFields

/-- The fields of the command's word are the command's fields. -/
def Statement (i : Instr) : Prop := Command.ofWord (encode i) = i.command

theorem decodePixel (lsb msb : Byte) : Statement (.decodePixel lsb msb) := Command.ofWord_toWord _
theorem decodeThermistor (lsb msb : Byte) : Statement (.decodeThermistor lsb msb) := Command.ofWord_toWord _
theorem encodeThreshold (t : Field) : Statement (.encodeThreshold t) := Command.ofWord_toWord _
theorem pixelRegisterPair (row col : Field) : Statement (.pixelRegisterPair row col) := Command.ofWord_toWord _
theorem setMode (mode : Field) : Statement (.setMode mode) := Command.ofWord_toWord _
theorem getStatus : Statement .getStatus := Command.ofWord_toWord _
theorem clearFlags (interrupt pixelOverflow thermistorOverflow : Bool) :
    Statement (.clearFlags interrupt pixelOverflow thermistorOverflow) := Command.ofWord_toWord _
theorem resetFlags : Statement .resetFlags := Command.ofWord_toWord _
theorem resetFlagsAndSettings : Statement .resetFlagsAndSettings := Command.ofWord_toWord _
theorem enableInterrupt (enabled : Bool) (mode : Field) : Statement (.enableInterrupt enabled mode) := Command.ofWord_toWord _
theorem setInterruptThresholds (low high hysteresis : Field) :
    Statement (.setInterruptThresholds low high hysteresis) := Command.ofWord_toWord _
theorem setFpsMode (mode : Field) : Statement (.setFpsMode mode) := Command.ofWord_toWord _
theorem getFps : Statement .getFps := Command.ofWord_toWord _
theorem updateInterruptTable : Statement .updateInterruptTable := Command.ofWord_toWord _
theorem updatePixelTemperatureMatrix : Statement .updatePixelTemperatureMatrix := Command.ofWord_toWord _
theorem updateThermistorTemperature : Statement .updateThermistorTemperature := Command.ofWord_toWord _
theorem getPixelTemperatureMatrix : Statement .getPixelTemperatureMatrix := Command.ofWord_toWord _
theorem getPixelTemperature (x y : Field) : Statement (.getPixelTemperature x y) := Command.ofWord_toWord _
theorem getThermistorTemperature : Statement .getThermistorTemperature := Command.ofWord_toWord _
theorem getInterruptTable : Statement .getInterruptTable := Command.ofWord_toWord _

end Sys2Proof.Laws.EncodeFields
end

