-- ==== Sys2Proof/Tests/Slice0.lean ====
section
/-! SUPPORT. Tests of single steps, every expected value taken from spec/95_test_vectors.md, and for every statement with hypotheses
a state that meets them. -/

namespace Sys2Proof.Tests

open Sys2Proof.Machine

/-! ## Small states -/

/-- Reset with the reference device RD (20_memory.md R78). -/
def rdState (bytes : Memory) (failing : List Nat) : State :=
  { State.reset with oracle := .reference ⟨bytes, 0, failing⟩ }

/-- Reset with these answers foretold. -/
def foretold (answers : List BusAnswer) : State :=
  { State.reset with oracle := .unconstrained answers }

/-- The same state with S.mode = Sleep. -/
def asleep (s : State) : State := { s with mode := .known .sleep }

/-- One step that runs this word. -/
def run (s : State) (w : Nat) : State :=
  match step (s.withFetchWord 64 w) with
  | .next t => t
  | _ => s

/-- The response of running this word. -/
def respOf (s : State) (w : Nat) : Option Response := (run s w).resp

/-- The transactions of running this word, without the device address. -/
def busOf (s : State) (w : Nat) : List (TransferKind × Byte × Option Byte) :=
  (run s w).trace.map fun
    | .readOk _ a b => (.read, a, some b)
    | .readFault _ a => (.read, a, none)
    | .writeOk _ a v => (.write, a, some v)
    | .writeFault _ a _ => (.write, a, none)

/-! ## Decoding: one word per command, from the fields of 30_encoding.md R90 and the opcodes of R95 -/

theorem test_decode_codec :
    decode 0x0100FF000F000000 = .ok (.decodePixel 0xFF 0x0F) ∧
    decode 0x0200900009000000 = .ok (.decodeThermistor 0x90 0x09) ∧
    decode 0x0300260000000000 = .ok (.encodeThreshold 38) ∧
    decode 0x0400010002000000 = .ok (.pixelRegisterPair 1 2) := by decide

theorem test_decode_control :
    decode 0x1000990000000000 = .ok (.setMode 0x99) ∧
    decode 0x1100000000000000 = .ok .getStatus ∧
    decode 0x1200010000000100 = .ok (.clearFlags true false true) ∧
    decode 0x1300000000000000 = .ok .resetFlags ∧
    decode 0x1400000000000000 = .ok .resetFlagsAndSettings := by decide

theorem test_decode_control_operands :
    decode 0x1500010002000000 = .ok (.enableInterrupt true 2) ∧
    decode 0x1604E203E8FFCE00 = .ok (.setInterruptThresholds 1250 1000 0xFFCE) ∧
    decode 0x1700020000000000 = .ok (.setFpsMode 2) ∧
    decode 0x1800000000000000 = .ok .getFps := by decide

theorem test_decode_update :
    decode 0x2000000000000000 = .ok .updateInterruptTable ∧
    decode 0x2100000000000000 = .ok .updatePixelTemperatureMatrix ∧
    decode 0x2200000000000000 = .ok .updateThermistorTemperature := by decide

theorem test_decode_accessors :
    decode 0x3000000000000000 = .ok .getPixelTemperatureMatrix ∧
    decode 0x3100080007000000 = .ok (.getPixelTemperature 8 7) ∧
    decode 0x3200000000000000 = .ok .getThermistorTemperature ∧
    decode 0x3300000000000000 = .ok .getInterruptTable := by decide

theorem test_decode_table_word :
    decodeTableWord 64 0x3100070006000000 = some (.getPixelTemperature 7 6) ∧
    decodeTableWord 64 0x0500000000000000 = none := by decide

/-! ## Ill-formed words, one per check (95_test_vectors.md 2.7) -/

theorem test_wf_reserved_opcode :
    decode 0x0000000000000000 = .error .reservedOpcode ∧ decode 0x0500000000000000 = .error .reservedOpcode ∧
    decode 0xFF00000000000000 = .error .reservedOpcode := by decide

theorem test_wf_reserved_z : decode 0x1100000000000001 = .error .reservedZ := by decide

theorem test_wf_unused_field :
    decode 0x1100010000000000 = .error (.unusedField .a) ∧ decode 0x0300000001000000 = .error (.unusedField .b) ∧
    decode 0x0100FF000F000100 = .error (.unusedField .c) := by decide

theorem test_wf_wide_byte :
    decode 0x0101000000000000 = .error (.wideByte .a) ∧ decode 0x0200000100000000 = .error (.wideByte .b) := by decide

theorem test_wf_wide_bool :
    decode 0x1200020000000000 = .error (.wideBool .a) ∧ decode 0x1200000002000000 = .error (.wideBool .b) ∧
    decode 0x1200000000000200 = .error (.wideBool .c) := by decide

theorem test_wf_fields_refused :
    (Command.wellFormed ⟨0x15, 2, 0, 0, 0⟩ = false) ∧ (Command.wellFormed ⟨0x15, 1, 0xFFFF, 0, 0⟩ = true) := by decide

theorem test_illegal_word_answers :
    respOf State.reset 0x1100000000000001 = some ⟨.illegalCommand, .none⟩ ∧
    (run State.reset 0x1100000000000001).trace = [] := by decide

/-! ## Codec -/

theorem test_decode_pixel_sign :
    respOf State.reset 0x0100FF000F000000 = some ⟨.ok, .pixel (-1)⟩ ∧
    respOf State.reset 0x0100000008000000 = some ⟨.ok, .pixel (-2048)⟩ := by decide

theorem test_decode_pixel_ignores_upper_nibble :
    respOf State.reset 0x0100FF00F7000000 = some ⟨.ok, .pixel 2047⟩ := by decide

theorem test_decode_therm_triple :
    respOf State.reset 0x02005A000B000000 = some ⟨.ok, .therm ⟨true, 53, 10⟩⟩ ∧
    respOf State.reset 0x02009000F1000000 = some ⟨.ok, .therm ⟨false, 25, 0⟩⟩ := by decide

theorem test_therm_celsius :
    thermCelsius ⟨true, 53, 10⟩ = -531 / 10 ∧ thermCelsius ⟨false, 25, 15⟩ = 376 / 15 := by
  have h : (10 : BitVec 4) ≠ 0#4 ∧ (15 : BitVec 4) ≠ 0#4 := by decide
  have e : (10 : BitVec 4).toNat = 10 ∧ (15 : BitVec 4).toNat = 15 ∧ (53 : BitVec 7).toNat = 53 ∧ (25 : BitVec 7).toNat = 25 := by
    decide
  constructor <;> norm_num [thermCelsius, thermFrac, h, e]

theorem test_pixel_celsius : pixelCelsius (-1) = -1 / 4 := by norm_num [pixelCelsius]

theorem test_encode_threshold_negative :
    respOf State.reset 0x03FC180000000000 = some ⟨.ok, .bytes2 0xD8 0x0F⟩ ∧
    respOf State.reset 0x0380000000000000 = some ⟨.ok, .bytes2 0xE1 0x0A⟩ := by decide

theorem test_encode_threshold_rounds :
    respOf State.reset 0x03FFF40000000000 = some ⟨.ok, .bytes2 0x00 0x00⟩ ∧
    respOf State.reset 0x03FFF30000000000 = some ⟨.ok, .bytes2 0xFF 0x0F⟩ := by decide

theorem test_pixel_pair :
    respOf State.reset 0x0400010001000000 = some ⟨.ok, .addr2 0x92 0x93⟩ ∧
    respOf State.reset 0x0400070007000000 = some ⟨.ok, .addr2 0xFE 0xFF⟩ := by decide

theorem test_pixel_pair_out_of_range :
    respOf State.reset 0x0400080000000000 = some ⟨.indexOutOfRange, .none⟩ ∧
    respOf State.reset 0x0400000008000000 = some ⟨.indexOutOfRange, .none⟩ := by decide

/-! ## Control -/

theorem test_set_mode :
    (run (rdState [] []) 0x1000210000000000).mode = .known .standBy10 ∧
    busOf (rdState [] []) 0x1000210000000000 = [(.write, 0x00, some 0x21)] ∧
    (run (rdState [] [1]) 0x1000100000000000).mode = .unknown := by decide

theorem test_set_mode_priority :
    respOf (asleep (rdState [] [])) 0x1000990000000000 = some ⟨.invalidArgument, .none⟩ ∧
    respOf (asleep (rdState [] [])) 0x1000210000000000 = some ⟨.deviceAsleep, .none⟩ ∧
    respOf (asleep (rdState [] [])) 0x1000000000000000 = some ⟨.ok, .none⟩ := by decide

theorem test_get_status :
    respOf (rdState [(0x04, 0x0A)] []) 0x1100000000000000 = some ⟨.ok, .status3 true false true⟩ ∧
    respOf (rdState [(0x04, 0xF1)] []) 0x1100000000000000 = some ⟨.ok, .status3 false false false⟩ := by decide

theorem test_clear_flags :
    busOf (rdState [] []) 0x1200010000000100 = [(.write, 0x05, some 0x0A)] ∧
    busOf (rdState [] []) 0x1200000001000000 = [(.write, 0x05, some 0x04)] := by decide

theorem test_reset_flags : busOf (rdState [] []) 0x1300000000000000 = [(.write, 0x01, some 0x30)] := by decide

theorem test_reset_flags_and_settings :
    busOf (rdState [] []) 0x1400000000000000 = [(.write, 0x01, some 0x3F)] := by decide

theorem test_enable_interrupt :
    busOf (rdState [] []) 0x1500010000000000 = [(.write, 0x03, some 0x01)] ∧
    busOf (rdState [] []) 0x1500000001000000 = [(.write, 0x03, some 0x02)] ∧
    respOf (rdState [] []) 0x1500010002000000 = some ⟨.invalidArgument, .none⟩ := by decide

theorem test_set_thresholds :
    busOf (rdState [] []) 0x1604E203E8FFCE00 =
      [ (.write, 0x08, some 0x28), (.write, 0x09, some 0x00), (.write, 0x0A, some 0x32), (.write, 0x0B, some 0x00)
      , (.write, 0x0C, some 0xFE), (.write, 0x0D, some 0x0F) ] ∧
    respOf (rdState [] []) 0x16F8300000000000 = some ⟨.invalidArgument, .none⟩ := by decide

theorem test_set_thresholds_bus_failure :
    busOf (rdState [] [4]) 0x1603E804E2001900 =
      [(.write, 0x08, some 0x32), (.write, 0x09, some 0x00), (.write, 0x0A, some 0x28), (.write, 0x0B, none)] ∧
    respOf (rdState [] [4]) 0x1603E804E2001900 = some ⟨.busError, .buserr 0x0B .write⟩ := by decide

theorem test_set_fps :
    (run (rdState [] []) 0x1700010000000000).fps = .known .fps1 ∧
    busOf (rdState [] []) 0x1700010000000000 = [(.write, 0x02, some 0x01)] ∧
    respOf (rdState [] []) 0x1700020000000000 = some ⟨.invalidArgument, .none⟩ := by decide

theorem test_get_fps :
    respOf (rdState [] []) 0x1800000000000000 = some ⟨.ok, .fps 10⟩ ∧
    respOf (rdState [(0x02, 0xFF)] []) 0x1800000000000000 = some ⟨.ok, .fps 1⟩ := by decide

/-! ## Update -/

theorem test_update_table :
    ((run (rdState [(0x10, 0x01), (0x17, 0x80)] []) 0x2000000000000000).itab.map fun t => Payload.packed (.table t)) =
      some 0x8000000000000001 := by decide

theorem test_update_table_bus_failure :
    (run (rdState [(0x10, 0x01)] [4]) 0x2000000000000000).itab = none ∧
    respOf (rdState [(0x10, 0x01)] [4]) 0x2000000000000000 = some ⟨.busError, .buserr 0x13 .read⟩ := by decide

theorem test_update_pixels :
    (run (rdState [(0xFE, 0xFF), (0xFF, 0x0F)] []) 0x2100000000000000).pix[63] = some (-1) := by decide

theorem test_update_pixels_bus_failure :
    let t := run (rdState [(0x80, 0x28), (0x82, 0x28), (0x84, 0x28)] [6]) 0x2100000000000000
    t.pix[1] = some 40 ∧ t.pix[2] = none ∧ t.resp = some ⟨.busError, .buserr 0x85 .read⟩ := by decide

theorem test_update_therm :
    (run (rdState [(0x0E, 0x94), (0x0F, 0x01)] []) 0x2200000000000000).therm = some ⟨false, 25, 4⟩ ∧
    (run (rdState [(0x0E, 0x94), (0x0F, 0x01)] [2]) 0x2200000000000000).therm = none := by decide

/-! ## Accessors -/

theorem test_get_matrix :
    respOf State.reset 0x3000000000000000 = some ⟨.notYetRead, .none⟩ ∧
    respOf { State.reset with pix := Vector.replicate 64 (some 100) } 0x3000000000000000 =
      some ⟨.ok, .matrix (Vector.replicate 64 100)⟩ := by decide

theorem test_get_pixel :
    respOf (asleep { State.reset with pix := (Vector.replicate 64 none).set 10 (some 40) }) 0x3100010002000000 =
      some ⟨.ok, .pixel 40⟩ ∧
    respOf State.reset 0x3100000000000000 = some ⟨.notYetRead, .none⟩ ∧
    respOf State.reset 0x3100080000000000 = some ⟨.indexOutOfRange, .none⟩ := by decide

theorem test_get_therm :
    respOf (asleep { State.reset with therm := some ⟨false, 25, 0⟩ }) 0x3200000000000000 = some ⟨.ok, .therm ⟨false, 25, 0⟩⟩ ∧
    respOf State.reset 0x3200000000000000 = some ⟨.notYetRead, .none⟩ := by decide

theorem test_get_table :
    respOf { State.reset with itab := some (Vector.replicate 64 true) } 0x3300000000000000 =
      some ⟨.ok, .table (Vector.replicate 64 true)⟩ ∧
    respOf State.reset 0x3300000000000000 = some ⟨.notYetRead, .none⟩ := by decide

/-! ## Packing, numbers, the assembler -/

theorem test_packing :
    Payload.packed (.pixel (-1)) = 0xFFF ∧ Payload.packed (.therm ⟨true, 53, 10⟩) = 0xB5A ∧
    Payload.packed (.buserr 0x85 .read) = 0x085 ∧ Payload.packed (.buserr 0x0B .write) = 0x10B ∧
    Payload.packed (.addr2 0x92 0x93) = 0x9392 := by decide

theorem test_internal_numbers :
    State.reset.mode.number = 0 ∧ (CachedMode.known .standBy10).number = 4 ∧ (CachedFps.known .fps1).number = 2 ∧
    Busy.busy.number = 1 ∧ Status.notYetRead.code = 6 := by decide

theorem test_assemble :
    assemble Config.defaultModeCodes "decode_pixel 0xFF, 0x0F".toList = .ok 0x0100FF000F000000 ∧
    assemble Config.defaultModeCodes "set_interrupt_thresholds -1999, 1999".toList = .ok 0x16F83107CF000000 ∧
    assemble Config.defaultModeCodes "set_mode standby10".toList = .ok 0x1000210000000000 := by decide

theorem test_assemble_pseudo :
    assemble Config.defaultModeCodes "clear_flags".toList = .ok 0x1200010001000100 ∧
    assemble Config.defaultModeCodes "enable_interrupt false".toList = .ok 0x1500000001000000 ∧
    assemble Config.defaultModeCodes "set_fps_mode 2".toList = .ok 0x1700020000000000 := by decide

theorem test_assemble_rejects :
    assemble Config.defaultModeCodes "decode_pixel 256, 0".toList = .error .operandRange ∧
    assemble Config.defaultModeCodes "get_status 1".toList = .error .operandCount ∧
    assemble Config.defaultModeCodes "set_mode noon".toList = .error .badOperand ∧
    assemble Config.defaultModeCodes "nop".toList = .error .unknownMnemonic := by decide

/-! ## Witnesses: what meets the statements' hypotheses -/

/-- Foretold answers serve the readings they hold, and the rest comes next. -/
theorem foretold_serves (l : List (Byte × Byte)) (rest : List BusAnswer) : ∀ s : State,
    s.oracle = .unconstrained ((l.map fun p => BusAnswer.ok p.2) ++ rest) →
    servesReads l s ∧ (afterReads l s).oracle = .unconstrained rest := by
  induction l with
  | nil => exact fun s h => ⟨trivial, h⟩
  | cons p l ih =>
    intro s h
    have h1 : answersRead s p.1 p.2 := by simp [answersRead, busAnswer, h]
    have h2 := ih (readDone s p.1 p.2) (by simp [readDone, h, BusOracle.after])
    exact ⟨⟨h1, h2.1⟩, h2.2⟩

theorem fault_next {s : State} {rest : List BusAnswer} (h : s.oracle = .unconstrained (.fault :: rest)) (a v : Byte) :
    failsRead s a ∧ failsWrite s a v := by
  simp [failsRead, failsWrite, busAnswer, h]

theorem witness_EncodeOfDecode : decode 0x04FFFFFFFF000000 = .ok (.pixelRegisterPair 0xFFFF 0xFFFF) := by decide

/-- A waiting word that is not well-formed. -/
theorem witness_WordIsLegalExactlyWhenOneRowCoversIt :
    (let s := { State.reset with port := [0x1100000000000001, 0x1800000000000000] }
     s.busy = .idle ∧ s.port = 0x1100000000000001 :: [0x1800000000000000]) ∧
    (Command.ofWord 0x1100000000000001).wellFormed = false := by decide

/-- Words that no row covers, and one that exactly one row covers (30_encoding.md R96). -/
theorem test_rows_cover :
    (¬ ∃! r, r ∈ opcodeTable ∧ r.covers 0x1100000000000001 = true) ∧
    ∃! r, r ∈ opcodeTable ∧ r.covers 0x1100000000000000 = true := by
  refine ⟨?_, ⟨⟨0xFFFFFFFFFFFFFFFF, 0x1100000000000000⟩, by decide, ?_⟩⟩
  · rintro ⟨r, ⟨hr, hc⟩, -⟩
    revert r
    decide
  · rintro r ⟨hr, hc⟩
    revert r
    decide

/-- Words at the ends of every reserved range, each waiting on the port of an Idle block. -/
theorem witness_ReservedOpcodesAreIllegal (w : Word)
    (hw : w ∈ [ (0x0000000000000000 : Word), 0x0500000000000000, 0x0FFFFFFFFFFFFFFF, 0x1900000000000000, 0x1F00000000000000
              , 0x2300000000000000, 0x2F00000000000000, 0x3400000000000000, 0xFF00000000000000 ]) :
    (let s := { State.reset with port := [w] }
     s.busy = .idle ∧ s.port = w :: []) ∧
    (let op := w.toNat / 2 ^ 56
     op = 0 ∨ (0x05 ≤ op ∧ op ≤ 0x0F) ∨ (0x19 ≤ op ∧ op ≤ 0x1F) ∨ (0x23 ≤ op ∧ op ≤ 0x2F) ∨ 0x34 ≤ op) := by
  refine ⟨⟨rfl, rfl⟩, ?_⟩
  simp only [List.mem_cons, List.not_mem_nil, or_false] at hw
  rcases hw with rfl | rfl | rfl | rfl | rfl | rfl | rfl | rfl | rfl <;> decide

/-- For StepRunsTheDecodedCommand and EveryCommandAdvancesTheIndexByOne. -/
theorem witness_a_command_waits :
    let s := { asleep State.reset with port := [0x0100FF000F000000, 0x1100000000000000] }
    s.busy = .idle ∧ s.port = 0x0100FF000F000000 :: [0x1100000000000000] ∧
      decode 0x0100FF000F000000 = .ok (.decodePixel 0xFF 0x0F) := by decide

theorem witness_BlockWaitsWithoutACommandToTake :
    (let s := { State.reset with busy := .busy, port := [0x1100000000000000] }
     s.busy = .busy ∧ s.port ≠ []) ∧ State.reset.busy = .idle ∧ State.reset.port = [] := by decide

theorem witness_injective_codes : Config.defaultModeCodes.Injective := by
  intro m n
  cases m <;> cases n <;> decide

/-- A cached pixel at each bound, a response, RD, and a waiting command. -/
def busyDay : State :=
  { rdState [(0x04, 0x0A)] [] with
    pix := ((Vector.replicate 64 none).set 0 (some (-2048))).set 63 (some 2047)
    resp := some ⟨.busError, .buserr 0x85 .read⟩
    port := [0x1100000000000000] }

/-- A state of the invariant that is not the reset state. -/
theorem witness_invariant : busyDay.Inv := by
  refine ⟨rfl, witness_injective_codes, ?_, ?_, (show Memory.wf [(0x04, 0x0A)] = true by decide)⟩
  · intro i q h
    simp only [busyDay, Vector.getElem_set, Vector.getElem_replicate] at h
    split at h
    · injection h with h; subst h; exact ⟨by decide, by decide⟩
    · split at h
      · injection h with h; subst h; exact ⟨by decide, by decide⟩
      · cases h
  · intro r h
    injection h with h
    subst h
    exact ⟨_, _, rfl⟩

/-- A Busy state, as a step hands it to a command, with cached pixels at both bounds: EveryCommandEndsWithOneResponse. -/
theorem witness_EveryCommandEndsWithOneResponse :
    let s := { busyDay with busy := .busy }
    s.busy = .busy ∧ s.pix[0] = some (-2048) ∧ s.pix[63] = some 2047 ∧
      ∀ (j : Fin 64) (q : Int), s.pix[j.val] = some q → PixelInRange q :=
  ⟨rfl, by decide, by decide, witness_invariant.pixels⟩

/-- And a step of the state of the invariant. -/
theorem witness_invariant_step : ∃ t, step busyDay = .next t := by
  rcases fetch_cases busyDay with ⟨h, -⟩ | ⟨w, rest, -, -, h⟩
  · exact ⟨_, by rw [step, h]⟩
  · rw [step, h]
    simp only
    cases decode w with
    | ok i => exact exec_next i _
    | error e => exact ⟨_, rfl⟩

theorem witness_ThresholdRoundTripsThroughThePixelDecoder :
    exec (.encodeThreshold 0x8000) State.reset = .next (ended State.reset ⟨.ok, .bytes2 0xE1 0x0A⟩) ∧
    exec (.encodeThreshold 0x7FFF) State.reset = .next (ended State.reset ⟨.ok, .bytes2 0x1F 0x05⟩) := by
  have h : encodeThreshFn (centi 0x8000#16) = (0xE1#8, 0x0A#8) ∧ encodeThreshFn (centi 0x7FFF#16) = (0x1F#8, 0x05#8) := by decide
  simp [exec, execEncodeThreshold, h.1, h.2, deliver_eq_ended]

theorem witness_PixelPairAnswersTheRegisterPair :
    ((7 : Field).toNat ≤ 7 ∧ (0 : Field).toNat ≤ 7) ∧ (7 < (8 : Field).toNat ∨ 7 < (0 : Field).toNat) ∧
      (7 < (0 : Field).toNat ∨ 7 < (0xFFFF : Field).toNat) := by decide

theorem witness_PixelPairsTileTheUpperRegisters : 0x80 ≤ (0x80 : Byte).toNat ∧ 0x80 ≤ (0xFF : Byte).toNat := by decide

/-- A code that no mode has; the codes of the four modes. -/
theorem witness_SetModeFollowsItsRule_code :
    State.reset.modeCodes.Injective ∧ (∀ m, (0x22 : Field) ≠ (State.reset.modeCodes.code m).setWidth 16) ∧
    (0x21 : Field) = (State.reset.modeCodes.code .standBy10).setWidth 16 ∧
    (0x00 : Field) = (State.reset.modeCodes.code .normal).setWidth 16 := by
  refine ⟨witness_injective_codes, ?_, by decide, by decide⟩
  intro m
  cases m <;> decide

/-- Asleep with a target other than Normal; awake, and asleep with target Normal, each with a write that fails and one that does
not. -/
theorem witness_SetModeFollowsItsRule_bus :
    (asleep State.reset).mode = .known .sleep ∧ DeviceMode.standBy10 ≠ .normal ∧ State.reset.mode ≠ .known .sleep ∧
    failsWrite (foretold [.fault]) 0x00 0x21 ∧ ¬ failsWrite (foretold [.ok 0]) 0x00 0x21 ∧
    failsWrite (asleep (foretold [.fault])) 0x00 0x00 ∧ ¬ failsWrite (asleep (foretold [.ok 0])) 0x00 0x00 := by
  refine ⟨rfl, by decide, by decide, rfl, ?_, rfl, ?_⟩ <;> exact fun h => BusAnswer.noConfusion h

/-- For the commands of one read: GetStatusReadsTheFlagsFresh, GetFpsReadsTheDevice. -/
theorem witness_one_read (a : Byte) :
    (asleep State.reset).mode = .known .sleep ∧ (foretold [.fault]).mode ≠ .known .sleep ∧
    (foretold [.ok 0x0A]).mode ≠ .known .sleep ∧ failsRead (foretold [.fault]) a ∧ answersRead (foretold [.ok 0x0A]) a 0x0A :=
  ⟨rfl, by decide, by decide, rfl, rfl⟩

/-- For the commands of one write: ClearFlagsWritesTheFlagBits, ResetCommandsWriteTheResetRegister,
EnableInterruptWritesModeAndEnable, SetFpsWritesTheFrameRate. -/
theorem witness_one_write (a v : Byte) :
    (asleep State.reset).mode = .known .sleep ∧ (foretold [.fault]).mode ≠ .known .sleep ∧
    (foretold [.ok 0]).mode ≠ .known .sleep ∧ failsWrite (foretold [.fault]) a v ∧ ¬ failsWrite (foretold [.ok 0]) a v :=
  ⟨rfl, by decide, by decide, rfl, fun h => BusAnswer.noConfusion h⟩

theorem witness_ResetCommandsWriteTheResetRegister :
    ∀ x ∈ [(Instr.resetFlags, (0x13 : Byte), (0x30 : Byte)), (Instr.resetFlagsAndSettings, 0x14, 0x3F)],
      (x.1 = .resetFlags ∧ x.2.1 = 0x13 ∧ x.2.2 = 0x30) ∨ (x.1 = .resetFlagsAndSettings ∧ x.2.1 = 0x14 ∧ x.2.2 = 0x3F) := by
  decide

theorem witness_EnableInterruptWritesModeAndEnable :
    1 < (2 : Field).toNat ∧ 1 < (0xFFFF : Field).toNat ∧ (0 : Field).toNat ≤ 1 ∧ (1 : Field).toNat ≤ 1 := by decide

/-- Both bounds, just outside and just inside. -/
theorem witness_SetThresholdsWritesSixBytes_range :
    (¬ ((-2000 < (0xF830 : Field).toInt ∧ (0xF830 : Field).toInt < 2000) ∧ (-2000 < (0 : Field).toInt ∧ (0 : Field).toInt < 2000))) ∧
    (¬ ((-2000 < (0 : Field).toInt ∧ (0 : Field).toInt < 2000) ∧ (-2000 < (2000 : Field).toInt ∧ (2000 : Field).toInt < 2000))) ∧
    ((-2000 < (0xF831 : Field).toInt ∧ (0xF831 : Field).toInt < 2000) ∧
      (-2000 < (1999 : Field).toInt ∧ (1999 : Field).toInt < 2000)) := by decide

/-- Six writes that succeed; and for each n below 6 the first n succeed and the next one fails. -/
theorem witness_SetThresholdsWritesSixBytes_bus :
    (asleep State.reset).mode = .known .sleep ∧
    (let s := foretold (List.replicate 6 (.ok 0))
     s.mode ≠ .known .sleep ∧ servesWrites (sixWrites (-1999) 1999 0) s) ∧
    ∀ n : Fin 6,
      let s := foretold (List.replicate n.val (.ok 0) ++ [.fault])
      let ws := sixWrites (-1999) 1999 0
      s.mode ≠ .known .sleep ∧ ∃ a v, ws[n.val]? = some (a, v) ∧ servesWrites (ws.take n.val) s ∧
        failsWrite (afterWrites (ws.take n.val) s) a v := by
  have no : ∀ b : Byte, BusAnswer.ok b ≠ .fault := fun _ h => BusAnswer.noConfusion h
  refine ⟨rfl, ⟨by decide, no _, no _, no _, no _, no _, no _, trivial⟩, ?_⟩
  intro n
  match n with
  | 0 => exact ⟨by decide, _, _, rfl, trivial, rfl⟩
  | 1 => exact ⟨by decide, _, _, rfl, ⟨no _, trivial⟩, rfl⟩
  | 2 => exact ⟨by decide, _, _, rfl, ⟨no _, no _, trivial⟩, rfl⟩
  | 3 => exact ⟨by decide, _, _, rfl, ⟨no _, no _, no _, trivial⟩, rfl⟩
  | 4 => exact ⟨by decide, _, _, rfl, ⟨no _, no _, no _, no _, trivial⟩, rfl⟩
  | 5 => exact ⟨by decide, _, _, rfl, ⟨no _, no _, no _, no _, no _, trivial⟩, rfl⟩

theorem witness_SetFpsWritesTheFrameRate :
    (FpsMode.fps10 = .fps10 ∧ (0 : Byte) = 0 ∨ FpsMode.fps10 = .fps1 ∧ (0 : Byte) = 1) ∧
    (FpsMode.fps1 = .fps10 ∧ (1 : Byte) = 0 ∨ FpsMode.fps1 = .fps1 ∧ (1 : Byte) = 1) ∧
    1 < (2 : Field).toNat ∧ (0 : Field) = (0 : Byte).setWidth 16 ∧ (1 : Field) = (1 : Byte).setWidth 16 := by decide

/-- All eight rows; and a failure at each of them. -/
theorem witness_UpdateIntTableCommitsWholesale (rows : Fin 8 → Byte) :
    (let s := foretold ((rowReads rows).map fun p => .ok p.2)
     s.mode ≠ .known .sleep ∧ servesReads (rowReads rows) s) ∧
    ∀ n : Nat, n < 8 →
      let s := foretold ((((rowReads rows).take n).map fun p => .ok p.2) ++ [.fault])
      s.mode ≠ .known .sleep ∧ servesReads ((rowReads rows).take n) s ∧
        failsRead (afterReads ((rowReads rows).take n) s) (BitVec.ofNat 8 (0x10 + n)) := by
  refine ⟨⟨by simp [foretold, State.reset, State.construct], (foretold_serves _ [] _ (by simp [foretold])).1⟩, ?_⟩
  intro n _
  have h := foretold_serves ((rowReads rows).take n) [.fault]
    (foretold ((((rowReads rows).take n).map fun p => .ok p.2) ++ [.fault])) rfl
  exact ⟨by simp [foretold, State.reset, State.construct], h.1, (fault_next h.2 _ 0).1⟩

/-- All 128 bytes; and a failure at each of the 128 readings. Also for GetPixelAnswersWhatTheUpdateRead, with the next state. -/
theorem witness_UpdatePixelsCommitsCellByCell (lo hi : Fin 64 → Byte) :
    (let s := foretold ((pixelReads lo hi).map fun p => .ok p.2)
     s.mode ≠ .known .sleep ∧ servesReads (pixelReads lo hi) s ∧ ∃ t, exec .updatePixelTemperatureMatrix s = .next t) ∧
    ∀ n : Nat, n < 128 →
      let s := foretold ((((pixelReads lo hi).take n).map fun p => .ok p.2) ++ [.fault])
      s.mode ≠ .known .sleep ∧ servesReads ((pixelReads lo hi).take n) s ∧
        failsRead (afterReads ((pixelReads lo hi).take n) s) (BitVec.ofNat 8 (0x80 + n)) := by
  refine ⟨⟨by simp [foretold, State.reset, State.construct], (foretold_serves _ [] _ (by simp [foretold])).1, _, rfl⟩, ?_⟩
  intro n _
  have h := foretold_serves ((pixelReads lo hi).take n) [.fault]
    (foretold ((((pixelReads lo hi).take n).map fun p => .ok p.2) ++ [.fault])) rfl
  exact ⟨by simp [foretold, State.reset, State.construct], h.1, (fault_next h.2 _ 0).1⟩

theorem witness_UpdateThermReplacesTheReading :
    (foretold [.fault]).mode ≠ .known .sleep ∧ failsRead (foretold [.fault]) 0x0E ∧
    answersRead (foretold [.ok 0x94, .fault]) 0x0E 0x94 ∧ failsRead (readDone (foretold [.ok 0x94, .fault]) 0x0E 0x94) 0x0F ∧
    answersRead (foretold [.ok 0x94, .ok 0x01]) 0x0E 0x94 ∧
    answersRead (readDone (foretold [.ok 0x94, .ok 0x01]) 0x0E 0x94) 0x0F 0x01 :=
  ⟨by decide, rfl, rfl, rfl, rfl, rfl⟩

/-- A full matrix; one with the last cell Unset. -/
theorem witness_GetMatrixAnswersTheCache :
    (let s := { State.reset with pix := Vector.replicate 64 (some 100) }
     ∀ i : Fin 64, s.pix[i.val] = some (Vector.replicate 64 (100 : Int))[i.val]) ∧
    (let s := { State.reset with pix := (Vector.replicate 64 (some 100)).set 63 none }
     ∃ i : Fin 64, s.pix[i.val] = none) := by decide

theorem witness_GetPixelAnswersOneCell :
    (7 < (8 : Field).toNat ∨ 7 < (0 : Field).toNat) ∧
    (let s := { State.reset with pix := (Vector.replicate 64 none).set 63 (some (-1)) }
     (7 : Field).toNat = (7 : Fin 8).val ∧ s.pix[8 * (7 : Fin 8).val + (7 : Fin 8).val] = some (-1) ∧
       (0 : Field).toNat = (0 : Fin 8).val ∧ s.pix[8 * (0 : Fin 8).val + (0 : Fin 8).val] = none) := by decide

theorem witness_GetThermAndTableAnswerTheCache :
    State.reset.therm = none ∧ State.reset.itab = none ∧
    { State.reset with therm := some ⟨true, 127, 15⟩ }.therm = some ⟨true, 127, 15⟩ ∧
    { State.reset with itab := some (Vector.replicate 64 true) }.itab = some (Vector.replicate 64 true) := by decide

theorem witness_CodecAndAccessorsOnlyRespond :
    (isCodec (.decodePixel 0 0) || isAccessor (.decodePixel 0 0)) = true ∧ isCodec (.decodePixel 0 0) = true ∧
    (isCodec .getInterruptTable || isAccessor .getInterruptTable) = true := by decide

/-- A command that answers a next state is met by every command; here one of each kind, with the argument error, the guard and the
unset entry of the rules over all commands. -/
theorem witness_a_command_answers :
    (∃ t, exec (.setMode 0x22) (asleep State.reset) = .next t ∧ t.resp = some ⟨.invalidArgument, .none⟩) ∧
    (∃ t, exec (.getPixelTemperature 8 0) (asleep State.reset) = .next t ∧ t.resp = some ⟨.indexOutOfRange, .none⟩) ∧
    (∃ t, exec (.setMode 0x21) (asleep State.reset) = .next t ∧ t.resp = some ⟨.deviceAsleep, .none⟩) ∧
    (∃ t, exec .getThermistorTemperature State.reset = .next t ∧ t.resp = some ⟨.notYetRead, .none⟩) ∧
    (∃ t, exec (.setMode 0x00) (asleep (foretold [.ok 0])) = .next t ∧ t.mode = .known .normal) ∧
    ∃ t, exec .updateThermistorTemperature (foretold [.ok 0, .fault]) = .next t ∧
      t.resp = some ⟨.busError, .buserr 0x0F .read⟩ :=
  ⟨⟨_, rfl, rfl⟩, ⟨_, rfl, rfl⟩, ⟨_, rfl, rfl⟩, ⟨_, rfl, rfl⟩, ⟨_, rfl, rfl⟩, ⟨_, rfl, rfl⟩⟩

/-- The arguments of ArgumentErrorsComeBeforeAnythingElse, valid and not, and the one command that wakes. -/
theorem witness_argumentsValid :
    (¬ argumentsValid Config.defaultModeCodes (.setMode 0x22)) ∧ argumentsValid Config.defaultModeCodes (.setMode 0x21) ∧
    (¬ argumentsValid Config.defaultModeCodes (.getPixelTemperature 8 0)) ∧ isWake Config.defaultModeCodes (.setMode 0) ∧
    ¬ isWake Config.defaultModeCodes .getStatus := by
  refine ⟨?_, ⟨.standBy10, by decide⟩, ?_, by simp [isWake, Config.defaultModeCodes], fun h => h⟩
  · rintro ⟨m, h⟩
    cases m <;> exact absurd h (by decide)
  · intro h
    exact absurd h.1 (by decide)

/-- Two payloads of each kind that has a choice, at the ends of their domains. -/
theorem witness_PayloadPackingFitsAndIsFaithful :
    let cells (q : Int) : Payload := .matrix (Vector.replicate 64 q)
    ∀ p ∈ [ (Payload.none, Payload.none), (.pixel (-2048), .pixel 2047), (.therm ⟨true, 127, 15⟩, .therm ⟨false, 0, 0⟩)
          , (.bytes2 0xFF 0x0F, .bytes2 0 0), (.addr2 0x80 0x81, .addr2 0xFE 0xFF), (.status3 true false true, .status3 false true false)
          , (.fps 1, .fps 10), (cells (-2048), cells 2047)
          , (.table (Vector.replicate 64 true), .table (Vector.replicate 64 false)), (.buserr 0xFF .write, .buserr 0xFF .read) ],
      p.1.SameKind p.2 ∧ p.1.InDomain ∧ p.2.InDomain := by
  simp [Payload.SameKind, Payload.InDomain, PixelInRange]

/-- The packings of two of them differ; equal payloads pack alike. -/
theorem witness_PayloadPackingFitsAndIsFaithful_equal :
    Payload.packed (.buserr 0xFF .write) = Payload.packed (.buserr 0xFF .write) ∧
    Payload.packed (.buserr 0xFF .write) ≠ Payload.packed (.buserr 0xFF .read) := by decide

/-- RD with its next transaction succeeding, and with it failing. -/
theorem witness_ReferenceDeviceIsAByteArray :
    (rdState [(0x04, 0x0A)] [2]).oracle = .reference ⟨[(0x04, 0x0A)], 0, [2]⟩ ∧ Memory.wf [(0x04, 0x0A)] = true ∧
    (0 + 1) ∉ [2] ∧ (0 + 1) ∈ [1] := by decide

/-- The line of 30_encoding.md R99, `decode_pixel 0xFF, 0x0F`: its texts write its operands. -/
theorem witness_AssembledWordsAreLegal_accepted (codes : ModeCodes) :
    List.Forall₂ (fun operand t => WritesOperand codes operand.1 t operand.2) (asmOperands (.decodePixel 0xFF 0x0F))
      ["0xFF".toList, "0x0F".toList] ∧
    written (asmMnemonic (.decodePixel 0xFF 0x0F)) ["0xFF".toList, "0x0F".toList] = "decode_pixel 0xFF, 0x0F".toList := by
  refine ⟨.cons (.inl ?_) (.cons (.inl ?_) .nil), by decide⟩ <;> rw [← integer?_eq_some_iff] <;> decide

/-- The ends of the ranges: an index and a code that no command takes, the lowest centi operand, a symbol. -/
theorem witness_AssembledWordsAreLegal_ends (codes : ModeCodes) :
    WritesOperand codes .idx "65535".toList (0xFFFF : Field).toNat ∧ WritesOperand codes .fpsCode "0xffff".toList (0xFFFF : Field).toNat ∧
    WritesOperand codes .centi "-32768".toList (0x8000 : Field).toInt ∧ WritesOperand codes .interruptCode "absolute".toList 1 := by
  refine ⟨.inl ?_, .inl ?_, .inl ?_, .inr (by simp [operandSymbols])⟩ <;> rw [← integer?_eq_some_iff] <;> decide

/-- Just outside the ranges, and a text that writes nothing: no value in range, so the line is rejected. -/
theorem witness_AssembledWordsAreLegal_rejected (codes : ModeCodes) :
    ∀ p ∈ [ (AsmKind.byte, "256".toList), (.byte, "-1".toList), (.bool, "2".toList), (.idx, "65536".toList), (.modeCode, "-1".toList)
          , (.centi, "32768".toList), (.centi, "-32769".toList), (.idx, "true".toList) ],
      OperandWord p.2 ∧ ∀ n, WritesOperand codes p.1 p.2 n → ¬ InOperandRange p.1 n := by
  have reject {k : AsmKind} {t : List Char} {e : AsmError} (h : operandValue codes k t = .error e) (n : Int)
      (hw : WritesOperand codes k t n) : ¬ InOperandRange k n := by
    intro hr
    rw [(operandValue_eq_ok_iff codes k t n).2 ⟨hw, hr⟩] at h
    cases h
  simp only [List.forall_mem_cons, List.not_mem_nil, false_implies, implies_true, and_true]
  refine ⟨⟨?_, reject rfl⟩, ⟨?_, reject rfl⟩, ⟨?_, reject rfl⟩, ⟨?_, reject rfl⟩, ⟨?_, reject rfl⟩, ⟨?_, reject rfl⟩,
    ⟨?_, reject rfl⟩, ⟨?_, reject rfl⟩⟩ <;> simp [OperandWord]

/-- Such an operand stands in a written line; wrong counts beside the pseudo-instructions' own; a mnemonic of no command. -/
theorem witness_AssembledWordsAreLegal_lines :
    ((AsmKind.byte, (0 : Int)), "256".toList) ∈ (asmOperands (.decodePixel 0 0)).zip ["256".toList, "0".toList] ∧
    (¬ TakesOperandCount (.decodePixel 0 0) 1) ∧ (¬ TakesOperandCount .getStatus 1) ∧
    (¬ TakesOperandCount (.clearFlags true true true) 1) ∧ (¬ TakesOperandCount (.clearFlags true true true) 2) ∧
    (¬ TakesOperandCount (.setInterruptThresholds 0 0 0) 1) ∧ (¬ TakesOperandCount (.enableInterrupt true 1) 3) ∧
    ∀ i, asmMnemonic i ≠ "nop".toList := by
  refine ⟨by decide, (show ¬ (1 = 2 ∨ False) by decide), (show ¬ (1 = 0 ∨ False) by decide), (show ¬ (1 = 3 ∨ 1 = 0) by decide),
    (show ¬ (2 = 3 ∨ 2 = 0) by decide), (show ¬ (1 = 3 ∨ 1 = 2) by decide), (show ¬ (3 = 2 ∨ 3 = 0 ∨ 3 = 1) by decide), ?_⟩
  intro i h
  have h := congrArg List.length h
  cases i <;> exact Nat.succ_ne_zero _ (Nat.succ.inj (Nat.succ.inj (Nat.succ.inj h)))

/-- A line that is accepted, its index out of the command's range. -/
theorem witness_AssembledWordsAreLegal :
    assemble Config.defaultModeCodes "get_pixel_temperature 65535, 8".toList = .ok 0x31FFFF0008000000 := by decide

theorem witness_PseudoInstructionsExpand :
    ("false".toList ≠ [] ∧ ∀ c ∈ "false".toList, c ≠ ' ' ∧ c ≠ ',') ∧
    ("-1999".toList ≠ [] ∧ ∀ c ∈ "-1999".toList, c ≠ ' ' ∧ c ≠ ',') := by
  simp

end Sys2Proof.Tests
end

/-! # 20_memory.md: the register map (O43)

Every command is a chain of single-byte transactions, each at a register its rule names. So "what has been issued since `s` is on the
map" is kept by every shared operation, given the map entry of its register, and each command is a walk along its own operations. -/
section
namespace Sys2Proof.Machine

/-- R51, R57 for one transaction: the device it carries, and a register the map lists for its kind. -/
def OnRegisterMap (dev : DevAddr) (e : BusEvent) : Prop :=
  eventDev e = dev ∧ (eventKind e = .read → mapReads (eventAddr e)) ∧ (eventKind e = .write → mapWrites (eventAddr e))

/-- From `s` to `t` the device address is kept and only transactions on the register map are issued. -/
structure StaysOnMap (s t : State) : Prop where
  devAddr : t.devAddr = s.devAddr
  trace : ∃ evs, t.trace = s.trace ++ evs ∧ ∀ e ∈ evs, OnRegisterMap s.devAddr e

/-! ## The registers the commands name are on the map -/

theorem mapReads_regTableRow (r : Fin 8) : mapReads (regTableRow r) := by
  have hr : (regTableRow r).toNat = 0x10 + r.val := by
    rw [regTableRow_eq, BitVec.toNat_ofNat]
    omega
  exact .inr (.inr (.inr (.inr (.inl (by omega)))))

/-- Both registers of a pixel's pair, R57's row 0x80 to 0xFF. -/
theorem mapReads_pixelRegisterPair (i : Fin 64) :
    mapReads (pixelRegisterPairFn (i.val / 8) (i.val % 8)).1 ∧ mapReads (pixelRegisterPairFn (i.val / 8) (i.val % 8)).2 := by
  have upper {n : Nat} (hl : 0x80 ≤ n) (hn : n < 256) : mapReads (BitVec.ofNat 8 n) := by
    refine .inr (.inr (.inr (.inr (.inr ?_))))
    rwa [BitVec.toNat_ofNat, Nat.mod_eq_of_lt hn]
  rw [pixelRegisterPairFn_cell]
  exact ⟨upper (by omega) (by omega), upper (by omega) (by omega)⟩

theorem mapWrites_thresholdWrites {low high hysteresis : Int} :
    ∀ w ∈ thresholdWrites low high hysteresis, mapWrites w.1 := by
  simp [thresholdWrites, mapWrites]

/-! ## What each shared operation adds -/

theorem StaysOnMap.refl (s : State) : StaysOnMap s s :=
  ⟨rfl, [], (List.append_nil _).symm, by simp⟩

/-- Nothing but the device address and the transactions matters. -/
theorem StaysOnMap.of_frame {s t u : State} (h : StaysOnMap s t) (hd : u.devAddr = t.devAddr) (ht : u.trace = t.trace) :
    StaysOnMap s u :=
  ⟨hd.trans h.devAddr, by rw [ht]; exact h.trace⟩

theorem StaysOnMap.deliver {s t : State} (h : StaysOnMap s t) (r : Response) : StaysOnMap s (deliver r t) :=
  h.of_frame rfl rfl

theorem StaysOnMap.afterTransaction {s t : State} {rq : BusRequest} {ans : BusAnswer} (h : StaysOnMap s t)
    (he : OnRegisterMap t.devAddr (busEvent rq ans)) : StaysOnMap s (afterTransaction rq ans t) := by
  obtain ⟨hd, evs, ht, hevs⟩ := h
  refine ⟨hd, evs ++ [busEvent rq ans], by simp [ht], fun e hmem => ?_⟩
  rcases List.mem_append.1 hmem with hold | hnew
  · exact hevs e hold
  · rw [List.mem_singleton.1 hnew, ← hd]
    exact he

theorem onRegisterMap_read {dev : DevAddr} {a : Byte} (ha : mapReads a) (ans : BusAnswer) :
    OnRegisterMap dev (busEvent (.read dev a) ans) := by
  cases ans <;> exact ⟨rfl, fun _ => ha, nofun⟩

theorem onRegisterMap_write {dev : DevAddr} {a : Byte} (ha : mapWrites a) (v : Byte) (ans : BusAnswer) :
    OnRegisterMap dev (busEvent (.write dev a v) ans) := by
  cases ans <;> exact ⟨rfl, nofun, fun _ => ha⟩

theorem StaysOnMap.memRead {s t : State} {a : Byte} {k : Byte → State → State} (h : StaysOnMap s t) (ha : mapReads a)
    (hk : ∀ b u, StaysOnMap s u → StaysOnMap s (k b u)) : StaysOnMap s (memRead a t k) :=
  memRead_induct (fun _ => (h.afterTransaction (onRegisterMap_read ha _)).deliver _)
    (fun b _ => hk b _ (h.afterTransaction (onRegisterMap_read ha _)))

theorem StaysOnMap.memWrite {s t : State} {a v : Byte} {k : State → State} (h : StaysOnMap s t) (ha : mapWrites a)
    (hk : ∀ u, StaysOnMap s u → StaysOnMap s (k u)) : StaysOnMap s (memWrite a v t k) :=
  memWrite_induct (fun _ => (h.afterTransaction (onRegisterMap_write ha _ _)).deliver _)
    (fun _ => hk _ (h.afterTransaction (onRegisterMap_write ha _ _)))

theorem StaysOnMap.sleepGuard {s t : State} {w : Bool} {k : State → State} (h : StaysOnMap s t) (hk : StaysOnMap s (k t)) :
    StaysOnMap s (sleepGuard w t k) :=
  sleepGuard_induct (fun _ _ => h.deliver _) (fun _ => hk)

/-! ## The loops -/

theorem StaysOnMap.memWriteSeq {s : State} {k : State → State} (hk : ∀ u, StaysOnMap s u → StaysOnMap s (k u)) :
    ∀ {ws : List (Byte × Byte)} {t : State}, (∀ w ∈ ws, mapWrites w.1) → StaysOnMap s t → StaysOnMap s (memWriteSeq ws t k)
  | [], _, _, h => hk _ h
  | (_, _) :: _, _, hws, h =>
    have ⟨ha, hrest⟩ := List.forall_mem_cons.1 hws
    h.memWrite ha fun _ hu => StaysOnMap.memWriteSeq hk hrest hu

theorem StaysOnMap.readRows {s : State} {k : Vector Byte 8 → State → State}
    (hk : ∀ v u, StaysOnMap s u → StaysOnMap s (k v u)) :
    ∀ {l : List (Fin 8)} {v : Vector Byte 8} {t : State}, StaysOnMap s t → StaysOnMap s (readRows l v t k)
  | [], v, _, h => hk v _ h
  | r :: _, _, _, h => h.memRead (mapReads_regTableRow r) fun _ _ hu => StaysOnMap.readRows hk hu

theorem StaysOnMap.updateCells {s : State} {k : State → State} (hk : ∀ u, StaysOnMap s u → StaysOnMap s (k u)) :
    ∀ {l : List (Fin 64)} {t : State}, StaysOnMap s t → StaysOnMap s (updateCells l t k)
  | [], _, h => hk _ h
  | i :: _, _, h =>
    have ⟨hlsb, hmsb⟩ := mapReads_pixelRegisterPair i
    h.memRead hlsb fun _ _ hu => hu.memRead hmsb fun _ _ hv => StaysOnMap.updateCells hk (hv.of_frame rfl rfl)

/-! ## The commands -/

/-- A guarded command of one write. -/
theorem StaysOnMap.oneWrite (s : State) {w : Bool} {a v : Byte} {k : State → State} (ha : mapWrites a)
    (hk : ∀ u, StaysOnMap s u → StaysOnMap s (k u)) :
    StaysOnMap s (Machine.sleepGuard w s fun s => Machine.memWrite a v s k) :=
  .sleepGuard (.refl s) (.memWrite (.refl s) ha hk)

/-- A guarded command that begins with a read. -/
theorem StaysOnMap.guardedRead (s : State) {a : Byte} {k : Byte → State → State} (ha : mapReads a)
    (hk : ∀ b u, StaysOnMap s u → StaysOnMap s (k b u)) :
    StaysOnMap s (Machine.sleepGuard false s fun s => Machine.memRead a s k) :=
  .sleepGuard (.refl s) (.memRead (.refl s) ha hk)

theorem exec_staysOnMap (i : Instr) (s : State) : ∃ t, exec i s = .next t ∧ StaysOnMap s t := by
  have ends (r : Response) : StaysOnMap s (deliver r s) := (StaysOnMap.refl s).deliver r
  cases i <;> refine ⟨_, rfl, ?_⟩
  case decodePixel | decodeThermistor | encodeThreshold => exact ends _
  case pixelRegisterPair | getPixelTemperatureMatrix | getThermistorTemperature | getInterruptTable =>
    split <;> exact ends _
  case getPixelTemperature =>
    split
    · exact ends _
    · split <;> exact ends _
  case clearFlags | resetFlags | resetFlagsAndSettings =>
    exact .oneWrite s (by simp [mapWrites]) fun _ h => h.deliver _
  case setMode | enableInterrupt | setFpsMode =>
    split
    · exact ends _
    · exact .oneWrite s (by simp [mapWrites]) fun _ h => h.of_frame rfl rfl
  case setInterruptThresholds =>
    split
    · exact .sleepGuard (.refl s) (.memWriteSeq (fun _ h => h.deliver _) mapWrites_thresholdWrites (.refl s))
    · exact ends _
  case getStatus | getFps => exact .guardedRead s (by simp [mapReads]) fun _ _ h => h.deliver _
  case updateInterruptTable =>
    refine .sleepGuard (.refl s) (.readRows (fun _ _ h => ?_) (.refl s))
    exact h.of_frame rfl rfl
  case updatePixelTemperatureMatrix => exact .sleepGuard (.refl s) (.updateCells (fun _ h => h.deliver _) (.refl s))
  case updateThermistorTemperature =>
    exact .guardedRead s (by simp [mapReads]) fun _ _ h => h.memRead (by simp [mapReads]) fun _ _ hu => hu.of_frame rfl rfl

/-- Settles O43: every command stays on the register map, walked operation by operation. -/
theorem transactionsStayOnTheRegisterMap : Obligations.TransactionsStayOnTheRegisterMap := by
  intro s t i h
  obtain ⟨t', ht', hmap⟩ := exec_staysOnMap i s
  obtain rfl : t' = t := Host.Outcome.next.inj (ht'.symm.trans h)
  exact hmap.trace

end Sys2Proof.Machine
end

/-! # 30_encoding.md: which words are commands (O4, O5)

Every operand kind limits its field to the values below a power of two. So a row of the opcode table is an opcode together with the
high-bit masks of its three fields, and "a row covers the word" and "the fields pass R96's checks" both say the same of the word's
fields. -/
section
namespace Sys2Proof

open Machine

/-! ## Fields -/

/-- How many low bits of its field an operand kind uses (30_encoding.md R92, R95). -/
def OperandKind.usedBits : OperandKind → Nat
  | .byte => 8
  | .bool => 1
  | .idx => 16
  | .code => 16
  | .centi => 16
  | .unused => 0

/-- The bits of its field that an operand kind requires to be 0. -/
def OperandKind.mask (k : OperandKind) : Field := BitVec.allOnes 16 <<< k.usedBits

theorem fieldWellFormed_iff_lt (k : OperandKind) (f : Field) : FieldWellFormed k f ↔ f.toNat < 2 ^ k.usedBits := by
  cases k
  case byte | bool => exact Iff.rfl
  case idx | code | centi => exact iff_of_true trivial f.isLt
  case unused => exact Nat.lt_one_iff.symm

/-- The high bits of a field are 0 exactly when its value is small. -/
theorem and_highMask_eq_zero_iff {w : Nat} (x : BitVec w) (n : Nat) :
    x &&& BitVec.allOnes w <<< n = 0#w ↔ x.toNat < 2 ^ n := by
  have hlt : x.toNat / 2 ^ n * 2 ^ n < 2 ^ w := (Nat.div_mul_le_self _ _).trans_lt x.isLt
  rw [← BitVec.shiftLeft_ushiftRight, ← BitVec.toNat_inj, BitVec.toNat_shiftLeft, BitVec.toNat_ushiftRight, Nat.shiftLeft_eq,
    Nat.shiftRight_eq_div_pow, Nat.mod_eq_of_lt hlt]
  simp [Nat.div_eq_zero_iff]

theorem and_kindMask_eq_zero_iff (k : OperandKind) (f : Field) : f &&& k.mask = 0#16 ↔ FieldWellFormed k f :=
  (and_highMask_eq_zero_iff f k.usedBits).trans (fieldWellFormed_iff_lt k f).symm

theorem fieldIllegal?_eq_none_iff (slot : Slot) (k : OperandKind) (f : Field) :
    fieldIllegal? slot k f = none ↔ FieldWellFormed k f := by
  have hf := f.isLt
  cases k
  case byte | bool =>
    simp [fieldIllegal?, FieldWellFormed, ← BitVec.toNat_inj, Nat.shiftRight_eq_div_pow]
    omega
  case idx | code | centi => exact iff_of_true rfl trivial
  case unused => simp [fieldIllegal?, FieldWellFormed, ← BitVec.toNat_inj]

/-! ## The checks of R96 -/

theorem Command.wellFormed_iff (c : Command) : c.wellFormed = true ↔
    ∃ f, formatOf c.op = some f ∧ c.z = 0#8 ∧ FieldWellFormed f.a c.a ∧ FieldWellFormed f.b c.b ∧ FieldWellFormed f.c c.c := by
  rw [Command.wellFormed, Option.isNone_iff_eq_none]
  constructor
  · intro h
    obtain ⟨f, hf, hz, hfields⟩ := Command.illegal?_none h
    exact ⟨f, hf, hz, by simpa only [fieldIllegal?_eq_none_iff] using hfields⟩
  · rintro ⟨f, hf, hz, ha, hb, hc⟩
    simp [Command.illegal?, hf, hz, (fieldIllegal?_eq_none_iff _ _ _).2, ha, hb, hc]

theorem Command.ofWord_z_eq_zero_iff (w : Word) : (Command.ofWord w).z = 0#8 ↔ w.toNat % 256 = 0 := by
  simp [Command.ofWord, ← BitVec.toNat_inj]

theorem Command.ofWord_op_toNat (w : Word) : (Command.ofWord w).op.toNat = w.toNat / 2 ^ 56 := by
  have hw := w.isLt
  simp only [Command.ofWord, BitVec.extractLsb'_toNat, Nat.shiftRight_eq_div_pow]
  omega

/-! ## The decoder -/

/-- Every opcode of the map has a command. -/
theorem Command.instr_ok {c : Command} {f : Format} (h : formatOf c.op = some f) : ∃ i, c.instr = .ok i := by
  rcases c with ⟨op, a, b, c, z⟩
  dsimp only at h
  unfold formatOf at h
  split at h
  case h_21 => cases h
  all_goals exact ⟨_, rfl⟩

theorem decode_ok_iff (w : Word) : (∃ i, decode w = .ok i) ↔ (Command.ofWord w).wellFormed = true := by
  unfold decode
  cases h : (Command.ofWord w).illegal? with
  | some e => simp [Command.wellFormed, h]
  | none =>
    obtain ⟨f, hf, -⟩ := Command.illegal?_none h
    simp [Command.wellFormed, h, Command.instr_ok hf]

/-! ## The opcode table -/

/-- The row that an opcode's format makes: the opcode and Z are fixed, and so are the bits that its fields may not use. -/
def Format.row (f : Format) (op : Byte) : TableRow :=
  { mask := (Command.mk 0xFF#8 f.a.mask f.b.mask f.c.mask 0xFF#8).toWord
    pattern := (Command.mk op 0#16 0#16 0#16 0#8).toWord }

/-- spec/opcode_table.json and the opcode map of R95 list the same rows. -/
theorem mem_opcodeTable_iff (r : TableRow) : r ∈ opcodeTable ↔ ∃ op f, formatOf op = some f ∧ r = f.row op := by
  constructor
  · intro hr
    have key : ∀ r ∈ opcodeTable, ∃ f ∈ formatOf (Command.ofWord r.pattern).op, r = f.row (Command.ofWord r.pattern).op := by
      decide
    obtain ⟨f, hf, hrow⟩ := key r hr
    exact ⟨_, f, hf, hrow⟩
  · rintro ⟨op, f, hf, rfl⟩
    unfold formatOf at hf
    split at hf
    case h_21 => cases hf
    all_goals
      cases hf
      decide

theorem Command.ofWord_inj {v w : Word} : Command.ofWord v = Command.ofWord w ↔ v = w :=
  (Function.LeftInverse.injective Command.toWord_ofWord).eq_iff

theorem Command.ofWord_and (v w : Word) : Command.ofWord (v &&& w) =
    { op := (Command.ofWord v).op &&& (Command.ofWord w).op
      a := (Command.ofWord v).a &&& (Command.ofWord w).a
      b := (Command.ofWord v).b &&& (Command.ofWord w).b
      c := (Command.ofWord v).c &&& (Command.ofWord w).c
      z := (Command.ofWord v).z &&& (Command.ofWord w).z } := by
  simp [Command.ofWord, BitVec.extractLsb'_and]

/-- A row fixes exactly what R96 checks. -/
theorem Format.row_covers_iff (f : Format) (op : Byte) (w : Word) : (f.row op).covers w = true ↔
    (Command.ofWord w).op = op ∧ (Command.ofWord w).z = 0#8 ∧ FieldWellFormed f.a (Command.ofWord w).a ∧
      FieldWellFormed f.b (Command.ofWord w).b ∧ FieldWellFormed f.c (Command.ofWord w).c := by
  have hones (x : Byte) : x &&& 0xFF#8 = x := BitVec.and_allOnes
  rw [TableRow.covers, beq_iff_eq, ← Command.ofWord_inj]
  simp only [Format.row, Command.ofWord_and, Command.ofWord_toWord, Command.mk.injEq, hones, and_kindMask_eq_zero_iff]
  tauto

/-- 30_encoding.md R96: the checks pass exactly when one row covers the word. -/
theorem Command.wellFormed_iff_unique_row (w : Word) :
    (Command.ofWord w).wellFormed = true ↔ ∃! r, r ∈ opcodeTable ∧ r.covers w = true := by
  rw [Command.wellFormed_iff]
  constructor
  · rintro ⟨f, hf, hfields⟩
    have hrow := (mem_opcodeTable_iff _).2 ⟨_, f, hf, rfl⟩
    have hcov := (f.row_covers_iff _ w).2 ⟨rfl, hfields⟩
    exact ⟨f.row _, ⟨hrow, hcov⟩, fun q ⟨hq, hqcov⟩ => opcodeTable_row_unique hq hrow hqcov hcov⟩
  · rintro ⟨r, ⟨hr, hcov⟩, -⟩
    obtain ⟨op, f, hf, rfl⟩ := (mem_opcodeTable_iff r).1 hr
    obtain ⟨rfl, hfields⟩ := (f.row_covers_iff op w).1 hcov
    exact ⟨f, hf, hfields⟩

/-- The opcodes that 30_encoding.md R97 reserves have no format. -/
theorem formatOf_reserved {op : Byte} (h : op.toNat = 0 ∨ (0x05 ≤ op.toNat ∧ op.toNat ≤ 0x0F) ∨
    (0x19 ≤ op.toNat ∧ op.toNat ≤ 0x1F) ∨ (0x23 ≤ op.toNat ∧ op.toNat ≤ 0x2F) ∨ 0x34 ≤ op.toNat) : formatOf op = none := by
  unfold formatOf
  split
  case h_21 => rfl
  all_goals exact absurd h (by decide)

end Sys2Proof

namespace Sys2Proof.Machine

/-- A waiting word that is not well-formed is taken, counted and refused. -/
theorem step_illegal {s : State} {w : Word} {rest : List Word} (hb : s.busy = .idle) (hp : s.port = w :: rest)
    (h : (Command.ofWord w).wellFormed = false) :
    step s = .next { ended s ⟨.illegalCommand, .none⟩ with port := rest, pos := s.pos + 1 } := by
  cases hd : decode w with
  | ok i => exact absurd ((decode_ok_iff w).1 ⟨i, hd⟩) (by simp [h])
  | error e =>
    simp only [step, fetch_some hb hp, hd]
    rfl

/-- Settles O4: the checks, the table and the decoder each say the same of the word's fields. -/
theorem wordIsLegalExactlyWhenOneRowCoversIt : Obligations.WordIsLegalExactlyWhenOneRowCoversIt := by
  refine ⟨fun w => ⟨?_, Command.wellFormed_iff_unique_row w, (decode_ok_iff w).symm⟩, fun _ _ _ => step_illegal⟩
  simp only [← Command.ofWord_z_eq_zero_iff]
  exact Command.wellFormed_iff _

/-- Settles O5: a reserved opcode has no format, so its word is not well-formed. -/
theorem reservedOpcodesAreIllegal : Obligations.ReservedOpcodesAreIllegal := by
  intro s w rest hb hp hop
  have hnone : formatOf (Command.ofWord w).op = none := formatOf_reserved (by rwa [Command.ofWord_op_toNat])
  refine step_illegal hb hp (Bool.eq_false_iff.2 fun h => ?_)
  obtain ⟨f, hf, -⟩ := (Command.wellFormed_iff _).1 h
  cases hnone.symm.trans hf

end Sys2Proof.Machine
end

/-! # 40_codec.md: the codec commands (O13, O14, O15, O16)

A codec command only answers, so two runs from one state agree exactly when their payloads do. What is left of each statement is
arithmetic on the bytes: a payload's numbers, and how they give the bytes back. -/
section
namespace Sys2Proof.Machine

/-! ## Words and responses -/

/-- A command's word is spelled by its opcode and fields (30_encoding.md R91). -/
theorem spells_of_command {i : Instr} {op : Byte} {a b c : Field} (h : i.command = ⟨op, a, b, c, 0#8⟩) : Spells i op a b c := by
  rw [Spells, encode, h, Command.toWord_toNat, BitVec.toNat_ofNat, Nat.zero_mod, Nat.add_zero]

/-- The response is all that tells two ends of a command apart. -/
theorem ended_inj {s : State} {r r' : Response} : ended s r = ended s r' ↔ r = r' :=
  ⟨fun h => Option.some.inj (congrArg State.resp h), congrArg _⟩

theorem next_ended_ok_inj {s : State} {p p' : Payload} :
    (.next (ended s ⟨.ok, p⟩) : Host.Outcome State Fault Refusal) = .next (ended s ⟨.ok, p'⟩) ↔ p = p' := by
  rw [Host.Outcome.next.injEq, ended_inj, Response.mk.injEq, and_iff_right rfl]

/-! ## DECODE_PIXEL -/

theorem exec_decodePixel (lsb msb : Byte) (s : State) :
    exec (.decodePixel lsb msb) s = .next (ended s ⟨.ok, .pixel (pixelOf lsb msb)⟩) := by
  rw [← decodePixelFn_eq_pixelOf]
  rfl

/-- R122: the reading and msb[3:0] : lsb determine each other. -/
theorem pixelOf_inj {l m l' m' : Byte} : pixelOf l m = pixelOf l' m' ↔ l = l' ∧ m.toNat % 16 = m'.toNat % 16 := by
  have hl := l.isLt
  have hl' := l'.isLt
  rw [← BitVec.toNat_inj]
  unfold pixelOf
  dsimp only
  constructor
  · intro h
    split at h <;> split at h <;> omega
  · rintro ⟨hlsb, hmsb⟩
    rw [hlsb, hmsb]

/-- Settles O13: the answer is the signed union, and the union gives its low byte and high nibble back. -/
theorem decodePixelAnswersTheSignedField : Obligations.DecodePixelAnswersTheSignedField := by
  refine ⟨fun s lsb msb => ⟨spells_of_command rfl, exec_decodePixel lsb msb s, ?_⟩, fun s l m l' m' => ?_⟩
  · rw [← decodePixelFn_eq_pixelOf]
    exact decodePixelFn_bounds lsb msb
  · rw [exec_decodePixel, exec_decodePixel, next_ended_ok_inj, Payload.pixel.injEq, pixelOf_inj]

/-! ## DECODE_THERM -/

theorem exec_decodeThermistor (lsb msb : Byte) (s : State) :
    exec (.decodeThermistor lsb msb) s = .next (ended s ⟨.ok, .therm (decodeThermFn lsb msb)⟩) := rfl

theorem decodeThermFn_neg_iff (lsb msb : Byte) : (decodeThermFn lsb msb).neg = true ↔ 8 ≤ msb.toNat % 16 := by
  simp only [decodeThermFn, BitVec.getLsbD, Nat.testBit_eq_decide_div_mod_eq, decide_eq_true_eq]
  omega

theorem decodeThermFn_ip_toNat (lsb msb : Byte) :
    (decodeThermFn lsb msb).ip.toNat = 16 * (msb.toNat % 8) + lsb.toNat / 16 := by
  have hl := lsb.isLt
  have hhigh : ((msb.extractLsb' 0 3).setWidth 7 <<< 4 : BitVec 7).toNat = (msb.toNat % 8) <<< 4 := by
    simp only [BitVec.toNat_shiftLeft, BitVec.toNat_setWidth, BitVec.extractLsb'_toNat, Nat.shiftLeft_eq, Nat.shiftRight_zero]
    omega
  have hlow : ((lsb.extractLsb' 4 4).setWidth 7 : BitVec 7).toNat = lsb.toNat / 16 := by
    simp only [BitVec.toNat_setWidth, BitVec.extractLsb'_toNat, Nat.shiftRight_eq_div_pow]
    omega
  have hlt : lsb.toNat / 16 < 2 ^ 4 := by omega
  rw [decodeThermFn, BitVec.toNat_or, hhigh, hlow, ← Nat.shiftLeft_add_eq_or_of_lt hlt, Nat.shiftLeft_eq]
  omega

theorem decodeThermFn_fn_toNat (lsb msb : Byte) : (decodeThermFn lsb msb).fn.toNat = lsb.toNat % 16 := by
  simp [decodeThermFn, BitVec.extractLsb'_toNat]

theorem ThermValue.eq_iff_fields (v v' : ThermValue) :
    v = v' ↔ (v.neg = true ↔ v'.neg = true) ∧ v.ip.toNat = v'.ip.toNat ∧ v.fn.toNat = v'.fn.toNat := by
  rcases v with ⟨neg, ip, fn⟩
  rcases v' with ⟨neg', ip', fn'⟩
  rw [ThermValue.mk.injEq, Bool.eq_iff_iff, BitVec.toNat_inj, BitVec.toNat_inj]

/-- R124: "(neg, ip, fn) together are exactly msb[3:0] : lsb[7:0]". -/
theorem decodeThermFn_inj {l m l' m' : Byte} :
    decodeThermFn l m = decodeThermFn l' m' ↔ l = l' ∧ m.toNat % 16 = m'.toNat % 16 := by
  have hl := l.isLt
  have hl' := l'.isLt
  rw [ThermValue.eq_iff_fields, decodeThermFn_neg_iff, decodeThermFn_neg_iff, decodeThermFn_ip_toNat, decodeThermFn_ip_toNat,
    decodeThermFn_fn_toNat, decodeThermFn_fn_toNat, ← BitVec.toNat_inj]
  omega

/-- Settles O14: the triple's numbers are R124's fields, and they give the twelve bits back. -/
theorem decodeThermAnswersTheTriple : Obligations.DecodeThermAnswersTheTriple := by
  refine ⟨fun s lsb msb => ⟨decodeThermFn lsb msb, spells_of_command rfl, exec_decodeThermistor lsb msb s,
    decodeThermFn_neg_iff lsb msb, decodeThermFn_ip_toNat lsb msb, decodeThermFn_fn_toNat lsb msb⟩, fun s l m l' m' => ?_⟩
  rw [exec_decodeThermistor, exec_decodeThermistor, next_ended_ok_inj, Payload.therm.injEq, decodeThermFn_inj]

/-! ## The temperature of a triple -/

theorem thermFrac_eq (fn : BitVec 4) : thermFrac fn = if fn.toNat = 0 then 0 else 1 / (fn.toNat : Rat) := by
  simp only [thermFrac, ← BitVec.toNat_inj, BitVec.toNat_ofNat, Nat.zero_mod]

/-- `1/fn` is at most 1 for every non-zero fraction code. -/
theorem thermFrac_bounds (fn : BitVec 4) : 0 ≤ thermFrac fn ∧ thermFrac fn ≤ 1 := by
  rw [thermFrac_eq]
  split
  · exact ⟨le_rfl, zero_le_one⟩
  · next h =>
    have hone : (1 : Rat) ≤ fn.toNat := by exact_mod_cast Nat.one_le_iff_ne_zero.2 h
    exact ⟨by positivity, div_le_one_of_le₀ hone (by positivity)⟩

theorem thermCelsius_false (ip : BitVec 7) (fn : BitVec 4) : thermCelsius ⟨false, ip, fn⟩ = ip.toNat + thermFrac fn := one_mul _

theorem thermCelsius_true (ip : BitVec 7) (fn : BitVec 4) :
    thermCelsius ⟨true, ip, fn⟩ = -thermCelsius ⟨false, ip, fn⟩ := by
  rw [thermCelsius_false]
  exact neg_one_mul _

/-- Without its sign a temperature lies between 0 and 127 + 1. -/
theorem thermCelsius_false_bounds (ip : BitVec 7) (fn : BitVec 4) :
    0 ≤ thermCelsius ⟨false, ip, fn⟩ ∧ thermCelsius ⟨false, ip, fn⟩ ≤ 128 := by
  obtain ⟨hnonneg, hle⟩ := thermFrac_bounds fn
  have hip : (ip.toNat : Rat) ≤ 127 := by exact_mod_cast Nat.le_of_lt_succ ip.isLt
  rw [thermCelsius_false]
  exact ⟨by positivity, by linarith⟩

theorem thermCelsius_bounds : ∀ v : ThermValue, -128 ≤ thermCelsius v ∧ thermCelsius v ≤ 128
  | ⟨false, ip, fn⟩ => by
    obtain ⟨hnonneg, hle⟩ := thermCelsius_false_bounds ip fn
    exact ⟨by linarith, hle⟩
  | ⟨true, ip, fn⟩ => by
    obtain ⟨hnonneg, hle⟩ := thermCelsius_false_bounds ip fn
    rw [thermCelsius_true]
    exact ⟨by linarith, by linarith⟩

/-- Settles O15: the two signs of one magnitude, bounded by `127 + 1`; 25 + 1/1 = 26 + 0, and 0 has both signs. -/
theorem thermCelsiusIsTheReciprocalFormula : Obligations.ThermCelsiusIsTheReciprocalFormula := by
  refine ⟨fun ip fn => ⟨?_, thermCelsius_true ip fn⟩, thermCelsius_bounds, ?_, ?_⟩
  · rw [thermCelsius_false, thermFrac_eq]
  · have htoNat : (25 : BitVec 7).toNat = 25 ∧ (26 : BitVec 7).toNat = 26 ∧ (1 : BitVec 4).toNat = 1 := by decide
    norm_num [thermCelsius_false, thermFrac_eq, htoNat]
  · simp [thermCelsius_true, thermCelsius_false, thermFrac_eq]

/-! ## ENCODE_THRESHOLD -/

theorem exec_encodeThreshold (t : Field) (s : State) :
    exec (.encodeThreshold t) s = .next (ended s ⟨.ok, .bytes2 (thresholdLow t.toInt) (thresholdHigh t.toInt)⟩) := by
  rw [exec, execEncodeThreshold, centi_eq_toInt, encodeThreshFn_eq]
  rfl

/-- R127: the high byte holds a nibble. -/
theorem thresholdHigh_toNat_lt (t : Int) : (thresholdHigh t).toNat < 16 := by
  have hfield := thresholdField_lt t
  rw [thresholdHigh, BitVec.toNat_ofNat]
  omega

/-- Settles O16: the operand is read as signed, and R127's field has twelve bits. -/
theorem encodeThresholdAnswersTheField : Obligations.EncodeThresholdAnswersTheField :=
  fun s t => ⟨spells_of_command rfl, exec_encodeThreshold t s, thresholdHigh_toNat_lt t.toInt⟩

end Sys2Proof.Machine
end

/-! # 41_control.md: the configuration and status commands (O20 to O27, O37)

R150 gives every bus command one shape: an argument check, the sleep guard, then the transactions. What the guard and one
transaction make of a command is said once, for any command of that shape; what is left of each statement is its operand's code
and the byte it writes or reads. -/
section
namespace Sys2Proof.Machine

/-! ## Guarded commands of one transaction -/

/-- R151: the guard lets a command through when the block is awake or the command wakes it. -/
theorem sleepGuard_pass {w : Bool} {s : State} (k : State → State) (h : s.mode ≠ .known .sleep ∨ w = true) :
    sleepGuard w s k = k s := by
  rcases h with hawake | rfl
  · exact sleepGuard_awake w k hawake
  · exact sleepGuard_wake s k

/-- A guarded command on a sleeping block. -/
theorem exec_asleep {i : Instr} {s : State} {k : State → State} (h : exec i s = .next (sleepGuard false s k)) :
    s.mode = .known .sleep → exec i s = .next (ended s ⟨.deviceAsleep, .none⟩) := by
  intro hsleep
  rw [h, sleepGuard_asleep k hsleep, deliver_eq_ended]

/-- A command of one write that passes the guard. -/
theorem exec_write {i : Instr} {s : State} {w : Bool} {a v : Byte} {k : State → State}
    (h : exec i s = .next (sleepGuard w s fun s => memWrite a v s k)) (hpass : s.mode ≠ .known .sleep ∨ w = true) :
    (failsWrite s a v → exec i s = .next (ended (writeFailed s a v) ⟨.busError, .buserr a .write⟩)) ∧
    (¬ failsWrite s a v → exec i s = .next (k (writeDone s a v))) := by
  rw [h, sleepGuard_pass _ hpass]
  constructor
  · intro hfail
    rw [memWrite_fault k hfail, deliver_eq_ended, afterTransaction_writeFault]
  · intro hdone
    rw [memWrite_ok k hdone, afterTransaction_writeOk]

/-- A command of one write that never wakes the block. -/
theorem exec_guardedWrite {i : Instr} {s : State} {a v : Byte} {k : State → State}
    (h : exec i s = .next (sleepGuard false s fun s => memWrite a v s k)) :
    (s.mode = .known .sleep → exec i s = .next (ended s ⟨.deviceAsleep, .none⟩)) ∧
    (s.mode ≠ .known .sleep →
      (failsWrite s a v → exec i s = .next (ended (writeFailed s a v) ⟨.busError, .buserr a .write⟩)) ∧
      (¬ failsWrite s a v → exec i s = .next (k (writeDone s a v)))) :=
  ⟨exec_asleep h, fun hawake => exec_write h (.inl hawake)⟩

/-- A command of one read. -/
theorem exec_guardedRead {i : Instr} {s : State} {a : Byte} {k : Byte → State → State}
    (h : exec i s = .next (sleepGuard false s fun s => memRead a s k)) :
    (s.mode = .known .sleep → exec i s = .next (ended s ⟨.deviceAsleep, .none⟩)) ∧
    (s.mode ≠ .known .sleep →
      (failsRead s a → exec i s = .next (ended (readFailed s a) ⟨.busError, .buserr a .read⟩)) ∧
      ∀ b, answersRead s a b → exec i s = .next (k b (readDone s a b))) := by
  refine ⟨exec_asleep h, fun hawake => ?_⟩
  rw [h, sleepGuard_awake _ _ hawake]
  constructor
  · intro hfail
    rw [memRead_fault k hfail, deliver_eq_ended, afterTransaction_readFault]
  · intro b hb
    rw [memRead_ok k hb, afterTransaction_readOk]

/-! ## SET_MODE -/

theorem exec_setMode_invalid {s : State} {code : Field} (h : modeOfCode? s.modeCodes code = none) :
    exec (.setMode code) s = .next (ended s ⟨.invalidArgument, .none⟩) := by
  simp only [exec, execSetMode, h]
  rfl

/-- The byte written is the mode's code. -/
theorem exec_setMode_valid {s : State} {code : Field} {m : DeviceMode} (h : modeOfCode? s.modeCodes code = some m) :
    exec (.setMode code) s = .next (sleepGuard (decide (m = .normal)) s fun s' =>
      memWrite regMode (s.modeCodes.code m) s' fun s' => respond .none (s'.setMode m)) := by
  have hbyte : code.extractLsb' 0 8 = s.modeCodes.code m := by
    rw [modeOfCode?_some h, ← BitVec.setWidth_eq_extractLsb' (by decide),
      BitVec.setWidth_setWidth_of_le _ (by decide), BitVec.setWidth_eq]
  simp only [exec, execSetMode, h, hbyte]

/-- Settles O20: R150's order, argument check before guard before write, for the one mode that the code names. -/
theorem setModeFollowsItsRule : Obligations.SetModeFollowsItsRule := by
  intro s code hinj
  refine ⟨spells_of_command rfl, fun h => exec_setMode_invalid (modeOfCode?_none.2 h), ?_⟩
  rintro m rfl
  have hexec := exec_setMode_valid (modeOfCode?_code hinj m)
  constructor
  · intro hsleep hm
    rw [decide_eq_false hm] at hexec
    exact exec_asleep hexec hsleep
  · intro hpass
    exact exec_write hexec (hpass.imp_right decide_eq_true)

/-! ## GET_STATUS -/

/-- R72: bits 3, 2 and 1 of the status byte. -/
theorem statusFlags_eq (b : Byte) : statusFlags b =
    .status3 (decide (b.toNat / 8 % 2 = 1)) (decide (b.toNat / 4 % 2 = 1)) (decide (b.toNat / 2 % 2 = 1)) := by
  simp only [statusFlags, BitVec.getLsbD, Nat.testBit_eq_decide_div_mod_eq, Nat.reducePow]

/-- Settles O21: one guarded read, answered with the flags of the byte it returns. -/
theorem getStatusReadsTheFlagsFresh : Obligations.GetStatusReadsTheFlagsFresh := by
  intro s
  simp only [← statusFlags_eq]
  exact ⟨spells_of_command rfl, exec_guardedRead (k := fun b => respond (statusFlags b)) rfl⟩

/-! ## CLEAR_FLAGS -/

theorem clearFlagsByte_eq (interrupt pixel therm : Bool) : clearFlagsByte interrupt pixel therm =
    BitVec.ofNat 8 (8 * therm.toNat + 4 * pixel.toNat + 2 * interrupt.toNat) := by
  revert interrupt pixel therm
  decide

/-- Settles O22: one guarded write of the three flag bits. -/
theorem clearFlagsWritesTheFlagBits : Obligations.ClearFlagsWritesTheFlagBits := by
  intro s interrupt pixel therm
  rw [← clearFlagsByte_eq]
  exact ⟨spells_of_command rfl, exec_guardedWrite (k := respond .none) rfl⟩

/-! ## RESET_FLAGS and RESET_ALL -/

/-- Settles O23: each command is one guarded write of its own value. -/
theorem resetCommandsWriteTheResetRegister : Obligations.ResetCommandsWriteTheResetRegister := by
  rintro s i op v (⟨rfl, rfl, rfl⟩ | ⟨rfl, rfl, rfl⟩)
  · exact ⟨spells_of_command rfl, exec_guardedWrite (k := respond .none) rfl⟩
  · exact ⟨spells_of_command rfl, exec_guardedWrite (k := respond .none) rfl⟩

/-! ## ENABLE_INT -/

/-- The interrupt mode found for a code has that code (30_encoding.md R94). -/
theorem interruptModeOfCode?_some {code : Field} {k : InterruptMode} (h : interruptModeOfCode? code = some k) :
    code = (Config.intModeCode k).setWidth 16 := by
  unfold interruptModeOfCode? at h
  split at h
  case isTrue hcode => cases h; exact hcode
  case isFalse =>
    split at h
    case isTrue hcode => cases h; exact hcode
    case isFalse => cases h

theorem interruptControlByte_eq (enabled : Bool) (k : InterruptMode) : interruptControlByte enabled k =
    BitVec.ofNat 8 (2 * ((Config.intModeCode k).setWidth 16 : Field).toNat + enabled.toNat) := by
  cases k <;> cases enabled <;> rfl

/-- A code of 0 or 1 names an interrupt mode. -/
theorem exists_interruptMode {code : Field} (h : code.toNat ≤ 1) : ∃ k, interruptModeOfCode? code = some k :=
  Option.ne_none_iff_exists'.1 (mt interruptModeOfCode?_none.1 (Nat.not_lt.2 h))

theorem exec_enableInterrupt_invalid (enabled : Bool) {mode : Field} (s : State) (h : interruptModeOfCode? mode = none) :
    exec (.enableInterrupt enabled mode) s = .next (ended s ⟨.invalidArgument, .none⟩) := by
  simp only [exec, execEnableInterrupt, h]
  rfl

theorem exec_enableInterrupt_valid (enabled : Bool) {mode : Field} (s : State) {k : InterruptMode}
    (h : interruptModeOfCode? mode = some k) : exec (.enableInterrupt enabled mode) s = .next (sleepGuard false s fun s =>
      memWrite regInterruptControl (BitVec.ofNat 8 (2 * mode.toNat + enabled.toNat)) s fun s => respond .none s) := by
  rw [interruptModeOfCode?_some h, ← interruptControlByte_eq, ← interruptModeOfCode?_some h]
  simp only [exec, execEnableInterrupt, h]

/-- Settles O24: a code of 0 or 1 names a mode, and its guarded write carries that code in bit 1. -/
theorem enableInterruptWritesModeAndEnable : Obligations.EnableInterruptWritesModeAndEnable := by
  intro s enabled mode
  refine ⟨spells_of_command rfl, fun h => exec_enableInterrupt_invalid enabled s (interruptModeOfCode?_none.2 h), fun h => ?_⟩
  obtain ⟨k, hk⟩ := exists_interruptMode h
  exact exec_guardedWrite (exec_enableInterrupt_valid enabled s hk)

/-! ## SET_THRESHOLDS -/

theorem thresholdWrites_eq_sixWrites (low high hyst : Int) : thresholdWrites low high hyst = sixWrites low high hyst := by
  simp only [thresholdWrites, encodeThreshFn_eq]
  rfl

/-- R159's check in the claims' words. -/
theorem inThresholdRange_centi (f : Field) : inThresholdRange (centi f) = true ↔ -2000 < f.toInt ∧ f.toInt < 2000 := by
  rw [inThresholdRange, centi_eq_toInt, Bool.and_eq_true, decide_eq_true_eq, decide_eq_true_eq]

theorem exec_setInterruptThresholds_invalid {low high : Field} (hyst : Field) (s : State)
    (h : ¬ ((-2000 < low.toInt ∧ low.toInt < 2000) ∧ (-2000 < high.toInt ∧ high.toInt < 2000))) :
    exec (.setInterruptThresholds low high hyst) s = .next (ended s ⟨.invalidArgument, .none⟩) := by
  rw [← inThresholdRange_centi, ← inThresholdRange_centi, ← Bool.and_eq_true] at h
  rw [exec, execSetInterruptThresholds, if_neg h]
  rfl

theorem exec_setInterruptThresholds_valid {low high : Field} (hyst : Field) (s : State)
    (h : (-2000 < low.toInt ∧ low.toInt < 2000) ∧ (-2000 < high.toInt ∧ high.toInt < 2000)) :
    exec (.setInterruptThresholds low high hyst) s = .next (sleepGuard false s fun s =>
      memWriteSeq (sixWrites low.toInt high.toInt hyst.toInt) s fun s => respond .none s) := by
  rw [← inThresholdRange_centi, ← inThresholdRange_centi, ← Bool.and_eq_true] at h
  rw [exec, execSetInterruptThresholds, if_pos h, thresholdWrites_eq_sixWrites, centi_eq_toInt, centi_eq_toInt, centi_eq_toInt]

/-- Settles O25: in range, the six writes are one sequence, which ends at its first failure. -/
theorem setThresholdsWritesSixBytes : Obligations.SetThresholdsWritesSixBytes := by
  intro s low high hyst
  refine ⟨spells_of_command rfl, exec_setInterruptThresholds_invalid hyst s, fun hrange => ?_⟩
  have hexec := exec_setInterruptThresholds_valid hyst s hrange
  refine ⟨exec_asleep hexec, fun hawake => ?_⟩
  rw [hexec, sleepGuard_awake _ _ hawake]
  constructor
  · intro hserves
    rw [memWriteSeq_ok _ _ _ hserves, respond_eq, deliver_eq_ended]
  · intro n a v hn hserves hfail
    rw [memWriteSeq_fault _ n a v _ _ hn hserves hfail]

/-! ## SET_FPS and GET_FPS -/

theorem fpsModeOfCode?_code (f : FpsMode) : fpsModeOfCode? ((Config.fpsCode f).setWidth 16) = some f := by
  cases f <;> rfl

/-- A code of 0 or 1 names a frame rate. -/
theorem exists_fpsMode {code : Field} (h : code.toNat ≤ 1) : ∃ f, fpsModeOfCode? code = some f :=
  Option.ne_none_iff_exists'.1 (mt fpsModeOfCode?_none.1 (Nat.not_lt.2 h))

theorem exec_setFpsMode_invalid {code : Field} (s : State) (h : fpsModeOfCode? code = none) :
    exec (.setFpsMode code) s = .next (ended s ⟨.invalidArgument, .none⟩) := by
  simp only [exec, execSetFpsMode, h]
  rfl

theorem exec_setFpsMode_valid {code : Field} (s : State) {f : FpsMode} (h : fpsModeOfCode? code = some f) :
    exec (.setFpsMode code) s = .next (sleepGuard false s fun s =>
      memWrite regFrameRate (Config.fpsCode f) s fun s => respond .none (s.setFps f)) := by
  simp only [exec, execSetFpsMode, h]

/-- Settles O26: a frame rate's code names it, and S.fps is set behind its guarded write. -/
theorem setFpsWritesTheFrameRate : Obligations.SetFpsWritesTheFrameRate := by
  intro s code f v hf
  obtain rfl : v = Config.fpsCode f := by
    rcases hf with ⟨rfl, rfl⟩ | ⟨rfl, rfl⟩ <;> rfl
  refine ⟨spells_of_command rfl, fun h => exec_setFpsMode_invalid s (fpsModeOfCode?_none.2 h), ?_⟩
  rintro rfl
  exact exec_guardedWrite (exec_setFpsMode_valid s (fpsModeOfCode?_code f))

/-- Settles O27: one guarded read, answered by whether its byte is 0. -/
theorem getFpsReadsTheDevice : Obligations.GetFpsReadsTheDevice := by
  intro s
  have hrate (b : Byte) : (if b.toNat = 0 then 10 else 1) = if b ≠ 0#8 then 1 else 10 := by
    rw [ite_not]
    exact if_congr (BitVec.toNat_inj (y := 0#8)) rfl rfl
  simp only [hrate]
  exact ⟨spells_of_command rfl, exec_guardedRead (k := fun b => respond (.fps (if b ≠ 0#8 then 1 else 10))) rfl⟩

/-! ## DeviceAsleep -/

/-- The command ended with another response than the sleep guard's. -/
def NotAsleep (t : State) : Prop := t.resp ≠ some ⟨.deviceAsleep, .none⟩

theorem notAsleep_deliver {r : Response} (s : State) (h : r.status ≠ .deviceAsleep) : NotAsleep (deliver r s) := by
  intro hresp
  rw [deliver_resp, Option.some.injEq] at hresp
  exact h (congrArg Response.status hresp)

theorem notAsleep_respond (p : Payload) (s : State) : NotAsleep (respond p s) :=
  notAsleep_deliver s nofun

theorem notAsleep_busError (a : Byte) (k : TransferKind) (s : State) : NotAsleep (deliver ⟨.busError, .buserr a k⟩ s) :=
  notAsleep_deliver s nofun

theorem notAsleep_memRead {a : Byte} {s : State} {k : Byte → State → State} (hk : ∀ b u, NotAsleep (k b u)) :
    NotAsleep (memRead a s k) :=
  memRead_induct (fun _ => notAsleep_busError _ _ _) (fun b _ => hk b _)

theorem notAsleep_memWrite {a v : Byte} {s : State} {k : State → State} (hk : ∀ u, NotAsleep (k u)) :
    NotAsleep (memWrite a v s k) :=
  memWrite_induct (fun _ => notAsleep_busError _ _ _) (fun _ => hk _)

theorem notAsleep_memWriteSeq {ws : List (Byte × Byte)} {s : State} {k : State → State} (hk : ∀ u, NotAsleep (k u)) :
    NotAsleep (memWriteSeq ws s k) :=
  memWriteSeq_induct (Q := fun _ => True) (fun _ _ _ h => h) (fun _ _ _ => notAsleep_busError _ _ _)
    (fun u _ => hk u) ws s trivial

theorem notAsleep_readRows {l : List (Fin 8)} {v : Vector Byte 8} {s : State} {k : Vector Byte 8 → State → State}
    (hk : ∀ v u, NotAsleep (k v u)) : NotAsleep (readRows l v s k) :=
  readRows_induct (Q := fun _ => True) (fun _ _ _ h => h) (fun _ _ _ => notAsleep_busError _ _ _)
    (fun v u _ => hk v u) l v s trivial

theorem notAsleep_updateCells {l : List (Fin 64)} {s : State} {k : State → State} (hk : ∀ u, NotAsleep (k u)) :
    NotAsleep (updateCells l s k) :=
  updateCells_induct (Q := fun _ => True) (fun _ _ _ h => h) (fun _ _ _ _ h => h) (fun _ _ _ => notAsleep_busError _ _ _)
    (fun u _ => hk u) l s trivial

/-- R151: when the sleep guard stops the command. -/
def StoppedBySleep (s : State) (i : Instr) : Prop :=
  isBusCommand i = true ∧ argumentsValid s.modeCodes i ∧ s.mode = .known .sleep ∧ ¬ isWake s.modeCodes i

theorem not_stoppedBySleep_of_not_bus {s : State} {i : Instr} (h : isBusCommand i = false) : ¬ StoppedBySleep s i :=
  fun ⟨hbus, _⟩ => Bool.false_ne_true (h.symm.trans hbus)

theorem not_stoppedBySleep_of_invalid {s : State} {i : Instr} (h : ¬ argumentsValid s.modeCodes i) : ¬ StoppedBySleep s i :=
  fun ⟨_, hargs, _⟩ => h hargs

/-- One command answers DeviceAsleep exactly when the guard stops it, and then changes nothing else. -/
def AsleepOnlyByGuard (s : State) (i : Instr) : Prop :=
  ∀ t, exec i s = .next t → (t.resp = some ⟨.deviceAsleep, .none⟩ ↔ StoppedBySleep s i) ∧
    (t.resp = some ⟨.deviceAsleep, .none⟩ → t = ended s ⟨.deviceAsleep, .none⟩)

theorem AsleepOnlyByGuard.of_notAsleep {s t : State} {i : Instr} (h : exec i s = .next t) (ht : NotAsleep t)
    (hstop : ¬ StoppedBySleep s i) : AsleepOnlyByGuard s i := by
  intro t' ht'
  obtain rfl : t = t' := Host.Outcome.next.inj (h.symm.trans ht')
  exact ⟨iff_of_false ht hstop, fun hresp => absurd hresp ht⟩

/-- A command whose argument check fails. -/
theorem AsleepOnlyByGuard.of_invalid {s : State} {i : Instr} (h : exec i s = .next (ended s ⟨.invalidArgument, .none⟩))
    (hargs : ¬ argumentsValid s.modeCodes i) : AsleepOnlyByGuard s i :=
  .of_notAsleep h (notAsleep_deliver s nofun) (not_stoppedBySleep_of_invalid hargs)

/-- A command whose own part, behind the guard, never answers DeviceAsleep. -/
theorem AsleepOnlyByGuard.of_sleepGuard {s : State} {i : Instr} {w : Bool} {k : State → State}
    (h : exec i s = .next (sleepGuard w s k)) (hk : NotAsleep (k s))
    (hstop : StoppedBySleep s i ↔ s.mode = .known .sleep ∧ w = false) : AsleepOnlyByGuard s i := by
  by_cases hs : StoppedBySleep s i
  · obtain ⟨hsleep, rfl⟩ := hstop.1 hs
    intro t ht
    obtain rfl : ended s _ = t := Host.Outcome.next.inj ((exec_asleep h hsleep).symm.trans ht)
    exact ⟨iff_of_true rfl hs, fun _ => rfl⟩
  · have hpass : s.mode ≠ .known .sleep ∨ w = true := by
      rwa [hstop, not_and_or, Bool.not_eq_false] at hs
    rw [sleepGuard_pass k hpass] at h
    exact .of_notAsleep h hk hs

/-- The same for a command that never wakes the block. -/
theorem AsleepOnlyByGuard.of_guarded {s : State} {i : Instr} {k : State → State} (h : exec i s = .next (sleepGuard false s k))
    (hk : NotAsleep (k s)) (hbus : isBusCommand i = true) (hargs : argumentsValid s.modeCodes i)
    (hwake : ¬ isWake s.modeCodes i) : AsleepOnlyByGuard s i :=
  .of_sleepGuard h hk ⟨fun ⟨_, _, hsleep, _⟩ => ⟨hsleep, rfl⟩, fun ⟨hsleep, _⟩ => ⟨hbus, hargs, hsleep, hwake⟩⟩

/-- The mode found is Normal exactly for Normal's code, MODE_CODE injective or not (log 11). -/
theorem modeOfCode?_normal_iff {codes : ModeCodes} {code : Field} {m : DeviceMode} (h : modeOfCode? codes code = some m) :
    m = .normal ↔ code = codes.normal.setWidth 16 := by
  constructor
  · rintro rfl
    exact modeOfCode?_some h
  · rintro rfl
    rw [modeOfCode?, ModeCodes.code, if_pos rfl] at h
    exact (Option.some.inj h).symm

theorem setMode_asleepOnlyByGuard (s : State) (code : Field) : AsleepOnlyByGuard s (.setMode code) := by
  cases hcode : modeOfCode? s.modeCodes code with
  | none => exact .of_invalid (exec_setMode_invalid hcode) fun ⟨m, hm⟩ => modeOfCode?_none.1 hcode m hm
  | some m =>
    refine .of_sleepGuard (exec_setMode_valid hcode) (notAsleep_memWrite fun _ => notAsleep_respond _ _) ?_
    rw [decide_eq_false_iff_not, modeOfCode?_normal_iff hcode]
    exact ⟨fun ⟨_, _, hsleep, hwake⟩ => ⟨hsleep, hwake⟩,
      fun ⟨hsleep, hwake⟩ => ⟨rfl, ⟨m, modeOfCode?_some hcode⟩, hsleep, hwake⟩⟩

theorem enableInterrupt_asleepOnlyByGuard (s : State) (enabled : Bool) (mode : Field) :
    AsleepOnlyByGuard s (.enableInterrupt enabled mode) := by
  by_cases hmode : mode.toNat ≤ 1
  · obtain ⟨k, hk⟩ := exists_interruptMode hmode
    exact .of_guarded (exec_enableInterrupt_valid enabled s hk) (notAsleep_memWrite fun _ => notAsleep_respond _ _) rfl hmode id
  · exact .of_invalid (exec_enableInterrupt_invalid enabled s (interruptModeOfCode?_none.2 (Nat.not_le.1 hmode))) hmode

theorem setFpsMode_asleepOnlyByGuard (s : State) (code : Field) : AsleepOnlyByGuard s (.setFpsMode code) := by
  by_cases hcode : code.toNat ≤ 1
  · obtain ⟨f, hf⟩ := exists_fpsMode hcode
    exact .of_guarded (exec_setFpsMode_valid s hf) (notAsleep_memWrite fun _ => notAsleep_respond _ _) rfl hcode id
  · exact .of_invalid (exec_setFpsMode_invalid s (fpsModeOfCode?_none.2 (Nat.not_le.1 hcode))) hcode

theorem setInterruptThresholds_asleepOnlyByGuard (s : State) (low high hyst : Field) :
    AsleepOnlyByGuard s (.setInterruptThresholds low high hyst) := by
  by_cases hrange : argumentsValid s.modeCodes (.setInterruptThresholds low high hyst)
  · exact .of_guarded (exec_setInterruptThresholds_valid hyst s hrange) (notAsleep_memWriteSeq fun _ => notAsleep_respond _ _)
      rfl hrange id
  · exact .of_invalid (exec_setInterruptThresholds_invalid hyst s hrange) hrange

/-- The codec commands and accessors have no guard, and every bus command is its guard before its own part. -/
theorem exec_asleepOnlyByGuard (s : State) (i : Instr) : AsleepOnlyByGuard s i := by
  cases i
  case decodePixel | decodeThermistor | encodeThreshold =>
    exact .of_notAsleep rfl (notAsleep_respond _ s) (not_stoppedBySleep_of_not_bus rfl)
  case pixelRegisterPair | getPixelTemperatureMatrix | getThermistorTemperature | getInterruptTable =>
    refine .of_notAsleep rfl ?_ (not_stoppedBySleep_of_not_bus rfl)
    split <;> exact notAsleep_deliver s nofun
  case getPixelTemperature =>
    refine .of_notAsleep rfl ?_ (not_stoppedBySleep_of_not_bus rfl)
    split
    · exact notAsleep_deliver s nofun
    · split <;> exact notAsleep_deliver s nofun
  case setMode code => exact setMode_asleepOnlyByGuard s code
  case enableInterrupt enabled mode => exact enableInterrupt_asleepOnlyByGuard s enabled mode
  case setFpsMode code => exact setFpsMode_asleepOnlyByGuard s code
  case setInterruptThresholds low high hyst => exact setInterruptThresholds_asleepOnlyByGuard s low high hyst
  case getStatus | getFps => exact .of_guarded rfl (notAsleep_memRead fun _ => notAsleep_respond _) rfl trivial id
  case clearFlags | resetFlags | resetFlagsAndSettings =>
    exact .of_guarded rfl (notAsleep_memWrite (notAsleep_respond _)) rfl trivial id
  case updateInterruptTable => exact .of_guarded rfl (notAsleep_readRows fun _ _ => notAsleep_respond _ _) rfl trivial id
  case updatePixelTemperatureMatrix => exact .of_guarded rfl (notAsleep_updateCells (notAsleep_respond _)) rfl trivial id
  case updateThermistorTemperature =>
    exact .of_guarded rfl (notAsleep_memRead fun _ _ => notAsleep_memRead fun _ _ => notAsleep_respond _ _) rfl trivial id

/-- Settles O37: only the sleep guard answers DeviceAsleep, and it stands before every bus command's own part. -/
theorem deviceAsleepExactlyUnderTheGuard : Obligations.DeviceAsleepExactlyUnderTheGuard :=
  fun s t i => exec_asleepOnlyByGuard s i t

end Sys2Proof.Machine
end

/-! # 42_update.md: the update commands (O28, O29, O30)

The loop laws already say what a loop does when all its reads succeed and when its n-th one fails. What is left of each
statement is the list of reads (which address is the n-th, which cells its first n complete) and what is committed as a
function of the cell. -/
section
namespace Sys2Proof.Machine

/-! ## One read in the claims' words -/

theorem memRead_failsRead {a : Byte} {s : State} (k : Byte → State → State) (h : failsRead s a) :
    memRead a s k = ended (readFailed s a) ⟨.busError, .buserr a .read⟩ :=
  memRead_fault k h

theorem memRead_answersRead {a b : Byte} {s : State} (k : Byte → State → State) (h : answersRead s a b) :
    memRead a s k = k b (readDone s a b) :=
  memRead_ok k h

/-! ## UPDATE_INT_TABLE -/

/-- The n-th reading is the one of row n. -/
theorem rowReads_getElem? (rows : Fin 8 → Byte) {n : Nat} (hn : n < 8) :
    (rowReads rows)[n]? = some (BitVec.ofNat 8 (0x10 + n), rows ⟨n, hn⟩) := by
  simp [rowReads, hn]

/-- R190: T[8*r + c] = row[r][c]. -/
theorem tableOfRows_cell (rows : Vector Byte 8) (r c : Fin 8) :
    (tableOfRows rows)[8 * r.val + c.val] = rows[r.val].getLsbD c.val := by
  have hrow : (8 * r.val + c.val) / 8 = r.val := by omega
  have hcol : (8 * r.val + c.val) % 8 = c.val := by omega
  simp only [tableOfRows, Vector.getElem_ofFn, hrow, hcol]

theorem exec_updateInterruptTable (s : State) : exec .updateInterruptTable s = .next (sleepGuard false s fun s =>
    readRows (List.finRange 8) (Vector.replicate 8 0#8) s fun rows s => respond .none (s.setTable (tableOfRows rows))) := rfl

/-- Settles O28: every row is filled before the table is made, and a failing row ends the loop with the table not yet set. -/
theorem updateIntTableCommitsWholesale : Obligations.UpdateIntTableCommitsWholesale := by
  intro s
  have hexec := exec_updateInterruptTable s
  refine ⟨spells_of_command rfl, exec_asleep hexec, fun hawake rows => ?_⟩
  rw [hexec, sleepGuard_awake _ _ hawake]
  constructor
  · intro hserves
    rw [readRows_ok rows _ _ _ _ hserves]
    refine ⟨_, rfl, fun r c => ?_⟩
    rw [tableOfRows_cell, rowsFilled_get rows _ _ r (List.mem_finRange r)]
  · intro n hn hserves hfail
    rw [readRows_fault rows _ _ n _ _ _ _ (rowReads_getElem? rows hn) hserves hfail]
    rfl

/-! ## UPDATE_PIXELS -/

/-- Two readings to a cell: the n-th is the low byte (n even) or the high byte (n odd) of the cell n / 2. -/
theorem cellReads_getElem? (lo hi : Fin 64 → Byte) : ∀ (l : List (Fin 64)) (n : Nat),
    (cellReads lo hi l)[n]? = l[n / 2]?.map fun i =>
      (BitVec.ofNat 8 (0x80 + 2 * i.val + n % 2), if n % 2 = 0 then lo i else hi i)
  | [], _ => rfl
  | _ :: _, 0 => rfl
  | i :: _, 1 => by simp [cellReads, Nat.add_right_comm]
  | i :: l, n + 2 => by
    simpa [cellReads] using cellReads_getElem? lo hi l n

/-- R191: the n-th reading is at 0x80 + n. -/
theorem pixelReads_getElem? (lo hi : Fin 64 → Byte) {n : Nat} (hn : n < 128) :
    ∃ b, (pixelReads lo hi)[n]? = some (BitVec.ofNat 8 (0x80 + n), b) := by
  have hhalf : n / 2 < 64 := by omega
  have hcell : (List.finRange 64)[n / 2]? = some ⟨n / 2, hhalf⟩ := by
    simp [hhalf]
  have haddr : 0x80 + 2 * (n / 2) + n % 2 = 0x80 + n := by omega
  have hread := cellReads_getElem? lo hi (List.finRange 64) n
  rw [hcell, Option.map_some, haddr] at hread
  exact ⟨_, hread⟩

/-- The cells whose pairs are complete after n readings. -/
theorem mem_take_finRange_half (i : Fin 64) (n : Nat) : i ∈ (List.finRange 64).take (n / 2) ↔ 2 * i.val + 1 < n := by
  have hi := i.isLt
  simp only [List.mem_take_iff_getElem, List.getElem_finRange, List.length_finRange, Fin.ext_iff, Fin.val_cast,
    exists_prop, exists_eq_right]
  omega

/-- What a commit of cells makes of the matrix, cell by cell. -/
theorem cellsCommitted_eq (lo hi : Fin 64 → Byte) (l : List (Fin 64)) (s : State) : cellsCommitted lo hi l s =
    { s with pix := Vector.ofFn fun i => if i ∈ l then some (pixelOf (lo i) (hi i)) else s.pix[i.val] } := by
  refine (cellsCommitted_frame lo hi l s).trans (congrArg (fun pix => { s with pix := pix }) ?_)
  ext1 j hj
  rw [Vector.getElem_ofFn]
  exact cellsCommitted_pix lo hi l s ⟨j, hj⟩

theorem exec_updatePixelTemperatureMatrix (s : State) : exec .updatePixelTemperatureMatrix s =
    .next (sleepGuard false s fun s => updateCells (List.finRange 64) s fun s => respond .none s) := rfl

/-- Settles O29: the loop commits all cells, or those of its complete pairs when a reading fails. -/
theorem updatePixelsCommitsCellByCell : Obligations.UpdatePixelsCommitsCellByCell := by
  intro s
  have hexec := exec_updatePixelTemperatureMatrix s
  refine ⟨spells_of_command rfl, exec_asleep hexec, fun hawake lo hi => ?_⟩
  rw [hexec, sleepGuard_awake _ _ hawake]
  constructor
  · intro hserves
    rw [updateCells_ok lo hi _ _ _ hserves, cellsCommitted_eq]
    simp only [List.mem_finRange, if_true]
    rfl
  · intro n hn hserves hfail
    obtain ⟨b, hread⟩ := pixelReads_getElem? lo hi hn
    rw [updateCells_fault lo hi _ n _ b _ _ hread hserves hfail, cellsCommitted_eq]
    simp only [mem_take_finRange_half, afterReads_pix]
    rfl

/-! ## UPDATE_THERM -/

theorem exec_updateThermistorTemperature (s : State) : exec .updateThermistorTemperature s =
    .next (sleepGuard false s fun s => memRead regThermistorLow s fun lsb s => memRead regThermistorHigh s fun msb s =>
      respond .none (s.setTherm (decodeThermFn lsb msb))) := rfl

/-- Settles O30: a guarded read, then a second one, and S.therm is set behind both. -/
theorem updateThermReplacesTheReading : Obligations.UpdateThermReplacesTheReading := by
  intro s
  obtain ⟨hasleep, hawake⟩ := exec_guardedRead (exec_updateThermistorTemperature s)
  refine ⟨spells_of_command rfl, hasleep, fun hmode => ⟨(hawake hmode).1, fun lsb hlsb => ?_⟩⟩
  rw [(hawake hmode).2 lsb hlsb]
  constructor
  · intro hfail
    rw [memRead_failsRead _ hfail]
  · intro msb hmsb
    rw [memRead_answersRead _ hmsb]
    exact ⟨decodeThermFn lsb msb, rfl, decodeThermFn_neg_iff lsb msb, decodeThermFn_ip_toNat lsb msb,
      decodeThermFn_fn_toNat lsb msb⟩

end Sys2Proof.Machine
end

/-! # 43_accessors.md: the accessors (O32, O33, O34)

An accessor issues no transaction and has no guard: it answers one cache entry, or NotYetRead when the entry is Unset (R210). So
a command's meaning is said once as the answer to its entry, and the two cases of every statement follow from that. -/
section
namespace Sys2Proof.Machine

/-! ## The answer to a cache entry -/

/-- R210: the entry's value as a payload, or NotYetRead for an Unset one. -/
def entryResponse {α : Type} (payload : α → Payload) : Option α → Response
  | none => ⟨.notYetRead, .none⟩
  | some v => ⟨.ok, payload v⟩

theorem exec_entry {i : Instr} {s : State} {α : Type} {payload : α → Payload} {entry : Option α}
    (h : exec i s = .next (ended s (entryResponse payload entry))) :
    (entry = none → exec i s = .next (ended s ⟨.notYetRead, .none⟩)) ∧
    ∀ v, entry = some v → exec i s = .next (ended s ⟨.ok, payload v⟩) := by
  constructor
  · rintro rfl
    exact h
  · rintro v rfl
    exact h

/-! ## GET_MATRIX -/

theorem exec_getPixelTemperatureMatrix_full {s : State} {cells : Vector Int 64}
    (h : ∀ i : Fin 64, s.pix[i.val] = some cells[i.val]) :
    exec .getPixelTemperatureMatrix s = .next (ended s ⟨.ok, .matrix cells⟩) := by
  have hread : ∀ i : Fin 64, s.pix[i.val].isSome = true := fun i => by rw [h i, Option.isSome_some]
  simp only [exec, execGetPixelTemperatureMatrix, dif_pos hread, respond_eq, deliver_eq_ended, h, Option.get_some]
  rw [Vector.ofFn_getElem]

theorem exec_getPixelTemperatureMatrix_unset {s : State} {i : Fin 64} (h : s.pix[i.val] = none) :
    exec .getPixelTemperatureMatrix s = .next (ended s ⟨.notYetRead, .none⟩) := by
  have hunset : ¬ ∀ j : Fin 64, s.pix[j.val].isSome = true := fun hread => by simpa [h] using hread i
  simp only [exec, execGetPixelTemperatureMatrix, dif_neg hunset]
  rfl

/-- Settles O32: the matrix is answered exactly when every cell has been read. -/
theorem getMatrixAnswersTheCache : Obligations.GetMatrixAnswersTheCache := fun _ =>
  ⟨spells_of_command rfl, fun _ hfull => exec_getPixelTemperatureMatrix_full hfull,
    fun ⟨_, hunset⟩ => exec_getPixelTemperatureMatrix_unset hunset⟩

/-! ## GET_PIXEL -/

/-- The index check comes before the cache is looked at. -/
theorem exec_getPixelTemperature_outOfRange {x y : Field} (s : State) (h : 7 < x.toNat ∨ 7 < y.toNat) :
    exec (.getPixelTemperature x y) s = .next (ended s ⟨.indexOutOfRange, .none⟩) := by
  simp only [exec, execGetPixelTemperature, dif_pos h]
  rfl

theorem exec_getPixelTemperature_inRange {x y : Field} (s : State) {row col : Fin 8} (hx : x.toNat = row.val)
    (hy : y.toNat = col.val) : exec (.getPixelTemperature x y) s =
      .next (ended s (entryResponse .pixel s.pix[8 * row.val + col.val])) := by
  have hrange : ¬ (7 < row.val ∨ 7 < col.val) := by omega
  simp only [exec, execGetPixelTemperature, hx, hy, dif_neg hrange]
  cases s.pix[8 * row.val + col.val] <;> rfl

/-- Settles O33: past the index check the command answers the entry of its cell. -/
theorem getPixelAnswersOneCell : Obligations.GetPixelAnswersOneCell := fun s _ _ =>
  ⟨spells_of_command rfl, exec_getPixelTemperature_outOfRange s,
    fun _ _ hx hy => exec_entry (exec_getPixelTemperature_inRange s hx hy)⟩

/-! ## GET_THERM and GET_INT_TABLE -/

theorem exec_getThermistorTemperature (s : State) :
    exec .getThermistorTemperature s = .next (ended s (entryResponse .therm s.therm)) := by
  simp only [exec, execGetThermistorTemperature]
  cases s.therm <;> rfl

theorem exec_getInterruptTable (s : State) :
    exec .getInterruptTable s = .next (ended s (entryResponse .table s.itab)) := by
  simp only [exec, execGetInterruptTable]
  cases s.itab <;> rfl

/-- Settles O34: the two cases of each command's entry. -/
theorem getThermAndTableAnswerTheCache : Obligations.GetThermAndTableAnswerTheCache := by
  intro s
  obtain ⟨hthermUnset, hthermRead⟩ := exec_entry (exec_getThermistorTemperature s)
  obtain ⟨htableUnset, htableRead⟩ := exec_entry (exec_getInterruptTable s)
  exact ⟨spells_of_command rfl, spells_of_command rfl, hthermUnset, hthermRead, htableUnset, htableRead⟩

end Sys2Proof.Machine
end

/-! # 60_exceptions.md: the argument errors and NotYetRead (O36, O38)

R237 gives the errors one order: the argument check, then what stands behind it. So the ends of a command are told apart once, for
every command: its check fails, or its accessor meets an Unset entry, or it ends with a status that no check raises. Both statements
are read off these ends. -/
section
namespace Sys2Proof.Machine

/-! ## The ends of a command -/

/-- The errors raised in the block alone, by the checks of R231, R232 and R236. -/
def Status.raisedByCheck : Status → Bool
  | .invalidArgument => true
  | .indexOutOfRange => true
  | .notYetRead => true
  | .ok => false
  | .busError => false
  | .illegalCommand => false
  | .deviceAsleep => false

/-- The command ended with another response than a check's. -/
def PastTheChecks (t : State) : Prop := ∀ r, t.resp = some r → r.status.raisedByCheck = false

theorem pastTheChecks_deliver {r : Response} {s : State} (h : r.status.raisedByCheck = false) : PastTheChecks (deliver r s) :=
  fun _ hresp => Option.some.inj hresp ▸ h

/-- A check's response is not among those a command past the checks gives. -/
theorem PastTheChecks.resp_ne {t : State} {r : Response} (h : PastTheChecks t) (hr : r.status.raisedByCheck = true) :
    t.resp ≠ some r :=
  fun hresp => Bool.false_ne_true ((h r hresp).symm.trans hr)

/-- R236: the result of the command would include an Unset entry. -/
def IncludesUnset (s : State) : Instr → Prop
  | .getPixelTemperatureMatrix => ∃ j : Fin 64, s.pix[j.val] = none
  | .getPixelTemperature x y =>
    ∃ row col : Fin 8, x.toNat = row.val ∧ y.toNat = col.val ∧ s.pix[8 * row.val + col.val] = none
  | .getThermistorTemperature => s.therm = none
  | .getInterruptTable => s.itab = none
  | _ => False

/-- The same, accessor by accessor. -/
theorem includesUnset_iff (s : State) (i : Instr) : IncludesUnset s i ↔
    (i = .getPixelTemperatureMatrix ∧ ∃ j : Fin 64, s.pix[j.val] = none) ∨
    (∃ (x y : Field) (row col : Fin 8), i = .getPixelTemperature x y ∧ x.toNat = row.val ∧ y.toNat = col.val ∧
      s.pix[8 * row.val + col.val] = none) ∨
    (i = .getThermistorTemperature ∧ s.therm = none) ∨ (i = .getInterruptTable ∧ s.itab = none) := by
  constructor
  · intro h
    cases i
    case getPixelTemperatureMatrix => exact .inl ⟨rfl, h⟩
    case getPixelTemperature x y =>
      obtain ⟨row, col, hcell⟩ := h
      exact .inr (.inl ⟨x, y, row, col, rfl, hcell⟩)
    case getThermistorTemperature => exact .inr (.inr (.inl ⟨rfl, h⟩))
    case getInterruptTable => exact .inr (.inr (.inr ⟨rfl, h⟩))
    all_goals exact h.elim
  · rintro (⟨rfl, h⟩ | ⟨x, y, row, col, rfl, h⟩ | ⟨rfl, h⟩ | ⟨rfl, h⟩)
    · exact h
    · exact ⟨row, col, h⟩
    · exact h
    · exact h

/-- An entry is included only past the index check. -/
theorem IncludesUnset.argumentsValid {s : State} {i : Instr} (h : IncludesUnset s i) : argumentsValid s.modeCodes i := by
  rcases (includesUnset_iff s i).1 h with ⟨rfl, _⟩ | ⟨x, y, row, col, rfl, hx, hy, _⟩ | ⟨rfl, _⟩ | ⟨rfl, _⟩
  · trivial
  · exact ⟨by omega, by omega⟩
  · trivial
  · trivial

/-- How the command `i` may end when it starts in `s` (R237). -/
inductive CommandEnd (s : State) (i : Instr) : State → Prop
  | invalidArgument (hbus : isBusCommand i = true) (hargs : ¬ argumentsValid s.modeCodes i) :
      CommandEnd s i (ended s ⟨.invalidArgument, .none⟩)
  | indexOutOfRange (hlocal : isBusCommand i = false) (hargs : ¬ argumentsValid s.modeCodes i) :
      CommandEnd s i (ended s ⟨.indexOutOfRange, .none⟩)
  | notYetRead (hunset : IncludesUnset s i) : CommandEnd s i (ended s ⟨.notYetRead, .none⟩)
  | pastTheChecks {t : State} (hargs : argumentsValid s.modeCodes i) (hset : ¬ IncludesUnset s i) (ht : PastTheChecks t) :
      CommandEnd s i t

/-- The command `i` ends in one of these ways. -/
def EndsInOrder (s : State) (i : Instr) : Prop := ∃ t, exec i s = .next t ∧ CommandEnd s i t

/-! ## Commands of one shape -/

/-- A command that is its sleep guard before its own part: the guard's answer is no check's. -/
theorem EndsInOrder.of_sleepGuard {s : State} {i : Instr} {w : Bool} {k : State → State}
    (h : exec i s = .next (sleepGuard w s k)) (hargs : argumentsValid s.modeCodes i) (hset : ¬ IncludesUnset s i)
    (hk : PastTheChecks (k s)) : EndsInOrder s i :=
  ⟨_, h, .pastTheChecks hargs hset (sleepGuard_induct (fun _ _ => pastTheChecks_deliver rfl) fun _ => hk)⟩

/-- A guarded command of one write. -/
theorem EndsInOrder.of_guardedWrite {s : State} {i : Instr} {w : Bool} {a v : Byte} {p : Payload} {f : State → State}
    (h : exec i s = .next (sleepGuard w s fun s => memWrite a v s fun s => respond p (f s)))
    (hargs : argumentsValid s.modeCodes i) (hset : ¬ IncludesUnset s i) : EndsInOrder s i :=
  .of_sleepGuard h hargs hset (memWrite_induct (fun _ => pastTheChecks_deliver rfl) fun _ => pastTheChecks_deliver rfl)

/-- A guarded command whose own part begins with a read. -/
theorem EndsInOrder.of_guardedRead {s : State} {i : Instr} {a : Byte} {k : Byte → State → State}
    (h : exec i s = .next (sleepGuard false s fun s => memRead a s k))
    (hargs : argumentsValid s.modeCodes i) (hset : ¬ IncludesUnset s i) (hk : ∀ b u, PastTheChecks (k b u)) :
    EndsInOrder s i :=
  .of_sleepGuard h hargs hset (memRead_induct (fun _ => pastTheChecks_deliver rfl) fun b _ => hk b _)

/-- R210: an accessor of one cache entry. -/
theorem EndsInOrder.of_entry {s : State} {i : Instr} {α : Type} {payload : α → Payload} {entry : Option α}
    (h : exec i s = .next (ended s (entryResponse payload entry))) (hargs : argumentsValid s.modeCodes i)
    (hunset : IncludesUnset s i ↔ entry = none) : EndsInOrder s i := by
  cases entry with
  | none => exact ⟨_, h, .notYetRead (hunset.2 rfl)⟩
  | some v => exact ⟨_, h, .pastTheChecks hargs (fun hnone => nomatch hunset.1 hnone) (pastTheChecks_deliver rfl)⟩

/-! ## The commands with an argument check -/

theorem setMode_endsInOrder (s : State) (code : Field) : EndsInOrder s (.setMode code) := by
  cases hcode : modeOfCode? s.modeCodes code with
  | none => exact ⟨_, exec_setMode_invalid hcode, .invalidArgument rfl fun ⟨m, hm⟩ => modeOfCode?_none.1 hcode m hm⟩
  | some m => exact .of_guardedWrite (exec_setMode_valid hcode) ⟨m, modeOfCode?_some hcode⟩ id

theorem enableInterrupt_endsInOrder (s : State) (enabled : Bool) (mode : Field) :
    EndsInOrder s (.enableInterrupt enabled mode) := by
  by_cases hmode : mode.toNat ≤ 1
  · obtain ⟨k, hk⟩ := exists_interruptMode hmode
    exact .of_guardedWrite (f := id) (exec_enableInterrupt_valid enabled s hk) hmode id
  · exact ⟨_, exec_enableInterrupt_invalid enabled s (interruptModeOfCode?_none.2 (Nat.not_le.1 hmode)),
      .invalidArgument rfl hmode⟩

theorem setFpsMode_endsInOrder (s : State) (code : Field) : EndsInOrder s (.setFpsMode code) := by
  by_cases hcode : code.toNat ≤ 1
  · obtain ⟨f, hf⟩ := exists_fpsMode hcode
    exact .of_guardedWrite (exec_setFpsMode_valid s hf) hcode id
  · exact ⟨_, exec_setFpsMode_invalid s (fpsModeOfCode?_none.2 (Nat.not_le.1 hcode)), .invalidArgument rfl hcode⟩

theorem setInterruptThresholds_endsInOrder (s : State) (low high hyst : Field) :
    EndsInOrder s (.setInterruptThresholds low high hyst) := by
  by_cases hrange : argumentsValid s.modeCodes (.setInterruptThresholds low high hyst)
  · exact .of_sleepGuard (exec_setInterruptThresholds_valid hyst s hrange) hrange id
      (memWriteSeq_induct (Q := fun _ => True) (fun _ _ _ => id) (fun _ _ _ => pastTheChecks_deliver rfl)
        (fun _ _ => pastTheChecks_deliver rfl) _ s trivial)
  · exact ⟨_, exec_setInterruptThresholds_invalid hyst s hrange, .invalidArgument rfl hrange⟩

/-- R129: the index check of PIXEL_PAIR. -/
theorem pixelRegisterPair_endsInOrder (s : State) (row col : Field) : EndsInOrder s (.pixelRegisterPair row col) := by
  refine ⟨_, rfl, ?_⟩
  split
  case isTrue hindex =>
    exact .indexOutOfRange rfl fun ⟨hrow, hcol⟩ => hindex.elim (Nat.not_lt.2 hrow) (Nat.not_lt.2 hcol)
  case isFalse hindex =>
    rw [not_or, Nat.not_lt, Nat.not_lt] at hindex
    exact .pastTheChecks hindex id (pastTheChecks_deliver rfl)

/-! ## The accessors of pixels -/

theorem getPixelTemperature_endsInOrder (s : State) (x y : Field) : EndsInOrder s (.getPixelTemperature x y) := by
  by_cases hindex : x.toNat ≤ 7 ∧ y.toNat ≤ 7
  · obtain ⟨row, hrow⟩ : ∃ row : Fin 8, x.toNat = row.val := ⟨⟨x.toNat, by omega⟩, rfl⟩
    obtain ⟨col, hcol⟩ : ∃ col : Fin 8, y.toNat = col.val := ⟨⟨y.toNat, by omega⟩, rfl⟩
    refine .of_entry (exec_getPixelTemperature_inRange s hrow hcol) hindex ⟨?_, fun h => ⟨row, col, hrow, hcol, h⟩⟩
    rintro ⟨row', col', hrow', hcol', h⟩
    obtain rfl : row' = row := Fin.ext (hrow'.symm.trans hrow)
    obtain rfl : col' = col := Fin.ext (hcol'.symm.trans hcol)
    exact h
  · exact ⟨_, exec_getPixelTemperature_outOfRange s (by omega), .indexOutOfRange rfl hindex⟩

theorem getPixelTemperatureMatrix_endsInOrder (s : State) : EndsInOrder s .getPixelTemperatureMatrix := by
  by_cases hunset : ∃ j : Fin 64, s.pix[j.val] = none
  · obtain ⟨j, hj⟩ := hunset
    exact ⟨_, exec_getPixelTemperatureMatrix_unset hj, .notYetRead ⟨j, hj⟩⟩
  · choose q hq using fun j => Option.ne_none_iff_exists'.1 (not_exists.1 hunset j)
    have hfull : ∀ j : Fin 64, s.pix[j.val] = some (Vector.ofFn q)[j.val] := fun j => by rw [hq j, Vector.getElem_ofFn]
    exact ⟨_, exec_getPixelTemperatureMatrix_full hfull, .pastTheChecks trivial hunset (pastTheChecks_deliver rfl)⟩

/-! ## Every command -/

theorem exec_endsInOrder (s : State) (i : Instr) : EndsInOrder s i := by
  cases i
  case decodePixel | decodeThermistor | encodeThreshold =>
    exact ⟨_, rfl, .pastTheChecks trivial id (pastTheChecks_deliver rfl)⟩
  case pixelRegisterPair row col => exact pixelRegisterPair_endsInOrder s row col
  case setMode code => exact setMode_endsInOrder s code
  case enableInterrupt enabled mode => exact enableInterrupt_endsInOrder s enabled mode
  case setInterruptThresholds low high hyst => exact setInterruptThresholds_endsInOrder s low high hyst
  case setFpsMode code => exact setFpsMode_endsInOrder s code
  case clearFlags | resetFlags | resetFlagsAndSettings => exact .of_guardedWrite (f := id) rfl trivial id
  case getStatus | getFps => exact .of_guardedRead rfl trivial id fun _ _ => pastTheChecks_deliver rfl
  case updateInterruptTable =>
    exact .of_sleepGuard (exec_updateInterruptTable s) trivial id
      (readRows_induct (Q := fun _ => True) (fun _ _ _ => id) (fun _ _ _ => pastTheChecks_deliver rfl)
        (fun _ _ _ => pastTheChecks_deliver rfl) _ _ s trivial)
  case updatePixelTemperatureMatrix =>
    exact .of_sleepGuard (exec_updatePixelTemperatureMatrix s) trivial id
      (updateCells_induct (Q := fun _ => True) (fun _ _ _ => id) (fun _ _ _ _ => id) (fun _ _ _ => pastTheChecks_deliver rfl)
        (fun _ _ => pastTheChecks_deliver rfl) _ s trivial)
  case updateThermistorTemperature =>
    exact .of_guardedRead (exec_updateThermistorTemperature s) trivial id fun _ _ =>
      memRead_induct (fun _ => pastTheChecks_deliver rfl) fun _ _ => pastTheChecks_deliver rfl
  case getPixelTemperatureMatrix => exact getPixelTemperatureMatrix_endsInOrder s
  case getPixelTemperature x y => exact getPixelTemperature_endsInOrder s x y
  case getThermistorTemperature => exact .of_entry (exec_getThermistorTemperature s) trivial Iff.rfl
  case getInterruptTable => exact .of_entry (exec_getInterruptTable s) trivial Iff.rfl

theorem commandEnd_of_exec {s t : State} {i : Instr} (h : exec i s = .next t) : CommandEnd s i t := by
  obtain ⟨t', ht', hend⟩ := exec_endsInOrder s i
  obtain rfl : t' = t := Host.Outcome.next.inj (ht'.symm.trans h)
  exact hend

/-- Settles O36: each of the two errors is one end of a command, and the class of the command tells them apart. -/
theorem argumentErrorsComeBeforeAnythingElse : Obligations.ArgumentErrorsComeBeforeAnythingElse := by
  intro s t i hexec
  cases commandEnd_of_exec hexec with
  | invalidArgument hbus hargs =>
    have hlocal : isBusCommand i ≠ false := Bool.ne_false_iff.2 hbus
    exact ⟨iff_of_true rfl ⟨hbus, hargs⟩, iff_of_false nofun fun h => hlocal h.1, fun _ => ⟨_, rfl⟩⟩
  | indexOutOfRange hlocal hargs =>
    have hbus : isBusCommand i ≠ true := Bool.eq_false_iff.1 hlocal
    exact ⟨iff_of_false nofun fun h => hbus h.1, iff_of_true rfl ⟨hlocal, hargs⟩, fun _ => ⟨_, rfl⟩⟩
  | notYetRead hunset =>
    have hargs := hunset.argumentsValid
    exact ⟨iff_of_false nofun fun h => h.2 hargs, iff_of_false nofun fun h => h.2 hargs, fun h => absurd hargs h⟩
  | pastTheChecks hargs _ ht =>
    exact ⟨iff_of_false (ht.resp_ne rfl) fun h => h.2 hargs, iff_of_false (ht.resp_ne rfl) fun h => h.2 hargs,
      fun h => absurd hargs h⟩

/-- Settles O38: NotYetRead is one end of a command, and the other ends include no Unset entry. -/
theorem notYetReadExactlyForUnsetEntries : Obligations.NotYetReadExactlyForUnsetEntries := by
  intro s t i hexec
  rw [← includesUnset_iff]
  cases commandEnd_of_exec hexec with
  | invalidArgument _ hargs => exact ⟨iff_of_false nofun fun h => hargs h.argumentsValid, nofun⟩
  | indexOutOfRange _ hargs => exact ⟨iff_of_false nofun fun h => hargs h.argumentsValid, nofun⟩
  | notYetRead hunset => exact ⟨iff_of_true rfl hunset, fun _ => rfl⟩
  | pastTheChecks _ hset ht => exact ⟨iff_of_false (ht.resp_ne rfl) hset, fun h => absurd h (ht.resp_ne rfl)⟩

end Sys2Proof.Machine
end

/-! # 70_reset_and_hazards.md: construction (O10)

Construction writes every field outright, so a scalar field's value is its definition. Two facts need a reason: every cell of the
pixel cache is Unset, and the block has no command to take because its port is empty. -/
section
namespace Sys2Proof.Machine

@[simp] theorem construct_pix_getElem (addr : DevAddr) (codes : ModeCodes) (i : Fin 64) :
    (State.construct addr codes).pix[i.val] = none :=
  Vector.getElem_replicate i.isLt

/-- R260: "the block waits for its first command". -/
@[simp] theorem fetch_construct (addr : DevAddr) (codes : ModeCodes) : fetch (State.construct addr codes) = none :=
  fetch_empty rfl

/-- Settles O10: the scalar fields are as written, every cell is Unset, and nothing waits at the port. -/
theorem constructionSetsTheResetValues : Obligations.ConstructionSetsTheResetValues := by
  intro addr codes
  have hpix := construct_pix_getElem addr codes
  have hfetch := fetch_construct addr codes
  exact ⟨rfl, rfl, rfl, hpix, rfl, rfl, rfl, rfl, hfetch⟩

end Sys2Proof.Machine
end

/-! # 30_encoding.md: the encoder and the decoder are inverse (O1, O2, O3)

A word and its raw fields determine each other, so both round trips are about fields. A command's fields pass every check of R96 and
spell that command; and fields that pass the checks are the fields of the command they spell, because a check leaves a field no bit
that its operand does not hold. -/
section
namespace Sys2Proof

/-! ## From a command to its fields and back -/

theorem Command.ofWord_encode (i : Instr) : Command.ofWord (encode i) = i.command :=
  Command.ofWord_toWord i.command

theorem Instr.command_illegal? (i : Instr) : i.command.illegal? = none := by
  cases i
  case decodePixel | decodeThermistor => simp [Instr.command, Command.illegal?, formatOf, fieldIllegal?, byteField_upper]
  case clearFlags | enableInterrupt => simp [Instr.command, Command.illegal?, formatOf, fieldIllegal?, boolField_upper]
  all_goals rfl

theorem Instr.command_instr (i : Instr) : i.command.instr = .ok i := by
  cases i
  case decodePixel | decodeThermistor | clearFlags | enableInterrupt => simp [Instr.command, Command.instr]
  all_goals rfl

theorem decode_encode (i : Instr) : decode (encode i) = .ok i := by
  simp only [decode, Command.ofWord_encode, Instr.command_illegal?, Instr.command_instr]

/-! ## From well-formed fields to their command and back -/

theorem fieldIllegal?_byte {slot : Slot} {f : Field} (h : fieldIllegal? slot .byte f = none) : byteField (byteOperand f) = f :=
  byteField_byteOperand (by simpa [fieldIllegal?] using h)

theorem fieldIllegal?_bool {slot : Slot} {f : Field} (h : fieldIllegal? slot .bool f = none) : boolField (boolOperand f) = f :=
  boolField_boolOperand (by simpa [fieldIllegal?] using h)

theorem fieldIllegal?_unused {slot : Slot} {f : Field} (h : fieldIllegal? slot .unused f = none) : f = 0#16 := by
  simpa [fieldIllegal?] using h

/-- Fields that pass the checks are those of the command they spell, opcode by opcode. -/
theorem Command.eq_command_of_instr {c : Command} {i : Instr} (hlegal : c.illegal? = none) (hi : c.instr = .ok i) :
    i.command = c := by
  obtain ⟨f, hf, hz, ha, hb, hc⟩ := Command.illegal?_none hlegal
  rcases c with ⟨op, a, b, c, z⟩
  dsimp only at hf hz ha hb hc
  subst hz
  unfold formatOf at hf
  split at hf
  case h_21 => cases hf
  all_goals
    cases hf
    cases hi
  case h_1 | h_2 => simp [Instr.command, fieldIllegal?_byte ha, fieldIllegal?_byte hb, fieldIllegal?_unused hc]
  case h_3 | h_5 | h_12 => simp [Instr.command, fieldIllegal?_unused hb, fieldIllegal?_unused hc]
  case h_4 | h_18 => simp [Instr.command, fieldIllegal?_unused hc]
  case h_7 => simp [Instr.command, fieldIllegal?_bool ha, fieldIllegal?_bool hb, fieldIllegal?_bool hc]
  case h_10 => simp [Instr.command, fieldIllegal?_bool ha, fieldIllegal?_unused hc]
  case h_11 => rfl
  all_goals simp [Instr.command, fieldIllegal?_unused ha, fieldIllegal?_unused hb, fieldIllegal?_unused hc]

theorem command_of_decode {w : Word} {i : Instr} (h : decode w = .ok i) : i.command = Command.ofWord w := by
  unfold decode at h
  split at h
  case h_1 => cases h
  case h_2 hlegal => exact Command.eq_command_of_instr hlegal h

/-- Settles O2: a command's fields pass the checks and spell it. -/
theorem decodeOfEncode : Obligations.DecodeOfEncode :=
  decode_encode

/-- Settles O3: an accepted word has the fields of its command, and a word is its fields. -/
theorem encodeOfDecode : Obligations.EncodeOfDecode := by
  intro w i h
  rw [encode, command_of_decode h, Command.toWord_ofWord]

/-- Settles O1: each word is the one spelling of its command. -/
theorem specWordsDecode : Obligations.SpecWordsDecode := by
  have spelled {w : Word} {i : Instr} (h : encode i = w) : decode w = .ok i := h ▸ decode_encode i
  exact ⟨spelled (by decide), spelled (by decide), spelled (by decide), spelled (by decide), spelled (by decide),
    spelled (by decide), spelled (by decide), spelled (by decide)⟩

end Sys2Proof
end

/-! # One command from its start to its response (O6 to O9, O11, O12, O35, O39 to O42, O44, O45, O48)

Every command ends in one of three ways: it answers without a transaction, a transaction of it fails, or all its transactions succeed
and it makes its one state write and answers OK. Until then only the trace, the oracle and (in UPDATE_PIXELS) the cells move, and
the transactions go down the command's row of 70_reset_and_hazards.md R270. `exec_runsToItsEnd` says this once, for every command; each
statement is then read off the three ends. -/
section
namespace Sys2Proof.Machine

/-! ## In the course of a command -/

/-- 10_state.md R27: every cached pixel is a PixelValue. -/
def State.PixelsInRange (s : State) : Prop := ∀ (j : Fin 64) (q : Int), s.pix[j.val] = some q → PixelInRange q

/-- The kind and the register of a transaction, as R270 lists them. -/
def requestEntry : BusRequest → TransferKind × Byte
  | .read _ a => (.read, a)
  | .write _ a _ => (.write, a)

theorem entry_busEvent (rq : BusRequest) (ans : BusAnswer) :
    (eventKind (busEvent rq ans), eventAddr (busEvent rq ans)) = requestEntry rq := by
  cases rq <;> cases ans <;> rfl

theorem eventFailed_fault (rq : BusRequest) : eventFailed (busEvent rq .fault) = true := by
  cases rq <;> rfl

theorem eventFailed_ok (rq : BusRequest) (b : Byte) : eventFailed (busEvent rq (.ok b)) = false := by
  cases rq <;> rfl

/-- The command `i` started in `s` and has come to `u`: all its transactions so far have succeeded, `todo` are still to come. -/
structure Underway (i : Instr) (s u : State) (todo : List (TransferKind × Byte)) : Prop where
  frame : u = { s with pix := u.pix, trace := u.trace, oracle := u.oracle }
  pix : i ≠ .updatePixelTemperatureMatrix → u.pix = s.pix
  inRange : s.PixelsInRange → u.PixelsInRange
  oracle : s.oracle.WellFormed → u.oracle.WellFormed
  issued : ∃ evs, u.trace = s.trace ++ evs ∧ (∀ e ∈ evs, eventFailed e = false) ∧
    evs.map (fun e => (eventKind e, eventAddr e)) ++ todo = planned i

theorem Underway.start (i : Instr) (s : State) : Underway i s s (planned i) :=
  ⟨rfl, fun _ => rfl, id, id, [], (List.append_nil _).symm, nofun, rfl⟩

/-- The next transaction on the list is issued, whatever its outcome. -/
theorem Underway.issue {i : Instr} {s u : State} {todo : List (TransferKind × Byte)} {rq : BusRequest}
    (h : Underway i s u (requestEntry rq :: todo)) (ans : BusAnswer) :
    ∃ evs, (afterTransaction rq ans u).trace = s.trace ++ (evs ++ [busEvent rq ans]) ∧ (∀ e ∈ evs, eventFailed e = false) ∧
      (evs ++ [busEvent rq ans]).map (fun e => (eventKind e, eventAddr e)) ++ todo = planned i := by
  obtain ⟨evs, htrace, hok, hplan⟩ := h.issued
  refine ⟨evs, by rw [afterTransaction_trace, htrace, List.append_assoc], hok, ?_⟩
  rw [List.map_append, List.map_singleton, entry_busEvent, List.append_assoc, List.singleton_append, hplan]

/-- The next transaction on the list succeeds. -/
theorem Underway.transaction {i : Instr} {s u : State} {todo : List (TransferKind × Byte)} {rq : BusRequest}
    (h : Underway i s u (requestEntry rq :: todo)) (b : Byte) : Underway i s (afterTransaction rq (.ok b) u) todo where
  frame := by rw [h.frame]; rfl
  pix := h.pix
  inRange := h.inRange
  oracle hs := BusOracle.after_wellFormed _ _ (h.oracle hs)
  issued := by
    obtain ⟨evs, htrace, hok, hplan⟩ := h.issue (.ok b)
    exact ⟨_, htrace, List.forall_mem_append.2 ⟨hok, List.forall_mem_singleton.2 (eventFailed_ok rq b)⟩, hplan⟩

theorem State.PixelsInRange.setPixel {u : State} (h : u.PixelsInRange) (j : Fin 64) {q : Int} (hq : PixelInRange q) :
    (u.setPixel j q).PixelsInRange := by
  intro k q' hk
  rw [State.setPixel_cell] at hk
  split at hk
  · exact Option.some.inj hk ▸ hq
  · exact h k q' hk

/-- UPDATE_PIXELS commits one cell (42_update.md R191). -/
theorem Underway.cell {s u : State} {todo : List (TransferKind × Byte)}
    (h : Underway .updatePixelTemperatureMatrix s u todo) (j : Fin 64) {q : Int} (hq : PixelInRange q) :
    Underway .updatePixelTemperatureMatrix s (u.setPixel j q) todo := by
  obtain ⟨hframe, -, hrange, horacle, hissued⟩ := h
  exact ⟨by rw [hframe]; rfl, fun hne => absurd rfl hne, fun hs => (hrange hs).setPixel j hq, horacle, hissued⟩

/-! ## The ends of a command -/

theorem wellFormed_ok_none : Response.WellFormed ⟨.ok, .none⟩ := ⟨trivial, nofun⟩

/-- What a command does once all its transactions have succeeded: it answers from what it read, or makes the one state write of
its rule and answers with no payload (R152, R160, R190, R192). -/
inductive Commits (i : Instr) (s u : State) : Payload → State → Prop
  | nothing {p : Payload} (hi : ∀ code, i ≠ .setMode code) (hwf : Response.WellFormed ⟨.ok, p⟩) : Commits i s u p u
  | mode {code : Field} {m : DeviceMode} (hi : i = .setMode code) (hm : modeOfCode? s.modeCodes code = some m)
      (hwake : s.mode = .known .sleep → m = .normal) : Commits i s u .none (u.setMode m)
  | fps {code : Field} {f : FpsMode} (hi : i = .setFpsMode code) : Commits i s u .none (u.setFps f)
  | therm {v : ThermValue} (hi : i = .updateThermistorTemperature) : Commits i s u .none (u.setTherm v)
  | table {cells : Vector Bool 64} (hi : i = .updateInterruptTable) : Commits i s u .none (u.setTable cells)

theorem Commits.wellFormed {i : Instr} {s u t : State} {p : Payload} (h : Commits i s u p t) :
    Response.WellFormed ⟨.ok, p⟩ := by
  cases h with
  | nothing _ hwf => exact hwf
  | mode | fps | therm | table => exact wellFormed_ok_none

/-- How the command `i`, started in `s`, may end. -/
inductive CommandRun (i : Instr) (s : State) : State → Prop
  | answered {r : Response} (hbus : r.status ≠ .busError) (hwf : s.PixelsInRange → r.WellFormed)
      (hok : r.status = .ok → planned i = [] ∧ ∀ code, i ≠ .setMode code) : CommandRun i s (ended s r)
  | failed {u : State} {rq : BusRequest} {todo : List (TransferKind × Byte)} (h : Underway i s u (requestEntry rq :: todo)) :
      CommandRun i s (ended (afterTransaction rq .fault u) ⟨.busError, .buserr (requestEntry rq).2 (requestEntry rq).1⟩)
  | done {u t : State} {p : Payload} (h : Underway i s u []) (hc : Commits i s u p t) :
      CommandRun i s (ended t ⟨.ok, p⟩)

/-- An error that the block finds by itself: its argument check, the sleep guard. -/
theorem CommandRun.refused {i : Instr} {s : State} {r : Response} (hok : r.status ≠ .ok) (hbus : r.status ≠ .busError)
    (hwf : r.WellFormed) : CommandRun i s (ended s r) :=
  .answered hbus (fun _ => hwf) (fun h => absurd h hok)

/-! ## The shared operations -/

theorem CommandRun.sleepGuard {i : Instr} {s : State} {w : Bool} {k : State → State}
    (hk : s.mode ≠ .known .sleep ∨ w = true → CommandRun i s (k s)) : CommandRun i s (Machine.sleepGuard w s k) :=
  sleepGuard_induct (fun _ _ => .refused nofun nofun rfl) hk

theorem CommandRun.memRead {i : Instr} {s u : State} {a : Byte} {k : Byte → State → State}
    {todo : List (TransferKind × Byte)} (h : Underway i s u ((.read, a) :: todo))
    (hk : ∀ b u, Underway i s u todo → CommandRun i s (k b u)) : CommandRun i s (Machine.memRead a u k) :=
  memRead_induct (fun _ => .failed (rq := .read u.devAddr a) h)
    (fun b _ => hk b _ (Underway.transaction (rq := .read u.devAddr a) h b))

theorem CommandRun.memWrite {i : Instr} {s u : State} {a v : Byte} {k : State → State} {todo : List (TransferKind × Byte)}
    (h : Underway i s u ((.write, a) :: todo)) (hk : ∀ u, Underway i s u todo → CommandRun i s (k u)) :
    CommandRun i s (Machine.memWrite a v u k) :=
  memWrite_induct (fun _ => .failed (rq := .write u.devAddr a v) h)
    (fun _ => hk _ (Underway.transaction (rq := .write u.devAddr a v) h v))

theorem CommandRun.memWriteSeq {i : Instr} {s : State} {k : State → State}
    (hk : ∀ u, Underway i s u [] → CommandRun i s (k u)) : ∀ {ws : List (Byte × Byte)} {u : State},
    Underway i s u (ws.map fun w => (.write, w.1)) → CommandRun i s (Machine.memWriteSeq ws u k)
  | [], u, h => hk u h
  | (_, _) :: _, _, h => .memWrite h fun _ hu => CommandRun.memWriteSeq hk hu

theorem CommandRun.readRows {i : Instr} {s : State} {k : Vector Byte 8 → State → State}
    (hk : ∀ v u, Underway i s u [] → CommandRun i s (k v u)) : ∀ {l : List (Fin 8)} {v : Vector Byte 8} {u : State},
    Underway i s u (l.map fun r => (.read, regTableRow r)) → CommandRun i s (Machine.readRows l v u k)
  | [], v, u, h => hk v u h
  | _ :: _, _, _, h => .memRead h fun _ _ hu => CommandRun.readRows hk hu

/-- The two readings of each of the given cells. -/
def cellEntries (l : List (Fin 64)) : List (TransferKind × Byte) :=
  l.flatMap fun j => [(.read, (pixelRegisterPairFn (j.val / 8) (j.val % 8)).1),
    (.read, (pixelRegisterPairFn (j.val / 8) (j.val % 8)).2)]

theorem CommandRun.updateCells {s : State} {k : State → State}
    (hk : ∀ u, Underway .updatePixelTemperatureMatrix s u [] → CommandRun .updatePixelTemperatureMatrix s (k u)) :
    ∀ {l : List (Fin 64)} {u : State}, Underway .updatePixelTemperatureMatrix s u (cellEntries l) →
      CommandRun .updatePixelTemperatureMatrix s (Machine.updateCells l u k)
  | [], u, h => hk u h
  | j :: _, _, h => .memRead h fun _ _ hu => .memRead hu fun _ _ hv =>
      CommandRun.updateCells hk (hv.cell j (decodePixelFn_bounds _ _))

/-- R270's row of UPDATE_PIXELS is the loop's order. -/
theorem planned_updatePixels : planned .updatePixelTemperatureMatrix = cellEntries (List.finRange 64) := by
  decide

theorem planned_updateTable :
    planned .updateInterruptTable = (List.finRange 8).map fun r => (.read, regTableRow r) := by
  decide

/-! ## The commands that issue no transaction -/

/-- What a codec command or an accessor may answer in `s`. -/
structure LocalAnswer (s : State) (r : Response) : Prop where
  notAsleep : r.status ≠ .deviceAsleep
  notBusError : r.status ≠ .busError
  wellFormed : s.PixelsInRange → r.WellFormed

theorem LocalAnswer.notYetRead (s : State) : LocalAnswer s ⟨.notYetRead, .none⟩ := ⟨nofun, nofun, fun _ => rfl⟩

theorem LocalAnswer.indexOutOfRange (s : State) : LocalAnswer s ⟨.indexOutOfRange, .none⟩ := ⟨nofun, nofun, fun _ => rfl⟩

theorem LocalAnswer.ok {s : State} {p : Payload} (h : s.PixelsInRange → Response.WellFormed ⟨.ok, p⟩) : LocalAnswer s ⟨.ok, p⟩ :=
  ⟨nofun, nofun, h⟩

/-- An accessor of one cache entry answers within the payload's domain when the entry does. -/
theorem LocalAnswer.entry {s : State} {α : Type} {payload : α → Payload} {entry : Option α}
    (h : s.PixelsInRange → ∀ v, entry = some v → Response.WellFormed ⟨.ok, payload v⟩) :
    LocalAnswer s (entryResponse payload entry) := by
  cases entry with
  | none => exact .notYetRead s
  | some v => exact .ok fun hs => h hs v rfl

/-- R129: the index check of PIXEL_PAIR, for every state. -/
theorem exec_pixelRegisterPair_outOfRange {row col : Field} (s : State) (h : 7 < row.toNat ∨ 7 < col.toNat) :
    exec (.pixelRegisterPair row col) s = .next (ended s ⟨.indexOutOfRange, .none⟩) := by
  simp only [exec, execPixelRegisterPair, if_pos h]
  rfl

theorem exec_pixelRegisterPair_inRange {row col : Field} (s : State) (h : ¬ (7 < row.toNat ∨ 7 < col.toNat)) :
    exec (.pixelRegisterPair row col) s = .next (ended s ⟨.ok, .addr2
      (pixelRegisterPairFn row.toNat col.toNat).1 (pixelRegisterPairFn row.toNat col.toNat).2⟩) := by
  simp only [exec, execPixelRegisterPair, if_neg h]
  rfl

/-- R120: one response for all states. -/
theorem exec_codec {i : Instr} (h : isCodec i = true) :
    ∃ r, ∀ s, exec i s = .next (ended s r) ∧ LocalAnswer s r := by
  cases i
  case decodePixel lsb msb =>
    exact ⟨_, fun s => ⟨rfl, .ok fun _ => ⟨decodePixelFn_bounds lsb msb, nofun⟩⟩⟩
  case decodeThermistor => exact ⟨_, fun s => ⟨rfl, .ok fun _ => ⟨trivial, nofun⟩⟩⟩
  case encodeThreshold t =>
    exact ⟨_, fun s => ⟨exec_encodeThreshold t s, .ok fun _ => ⟨thresholdHigh_toNat_lt t.toInt, nofun⟩⟩⟩
  case pixelRegisterPair row col =>
    by_cases hindex : 7 < row.toNat ∨ 7 < col.toNat
    · exact ⟨_, fun s => ⟨exec_pixelRegisterPair_outOfRange s hindex, .indexOutOfRange s⟩⟩
    · exact ⟨_, fun s => ⟨exec_pixelRegisterPair_inRange s hindex, .ok fun _ => ⟨trivial, nofun⟩⟩⟩
  all_goals cases h

/-- GET_PIXEL past its index check, in the operands' own numbers. -/
theorem exec_getPixelTemperature_cell {x y : Field} (s : State) (h : ¬ (7 < x.toNat ∨ 7 < y.toNat)) :
    exec (.getPixelTemperature x y) s =
      .next (ended s (entryResponse .pixel (s.pix[8 * x.toNat + y.toNat]'(by omega)))) :=
  exec_getPixelTemperature_inRange s (row := ⟨x.toNat, by omega⟩) (col := ⟨y.toNat, by omega⟩) rfl rfl

theorem exec_getPixelTemperature_local (x y : Field) (s : State) :
    ∃ r, exec (.getPixelTemperature x y) s = .next (ended s r) ∧ LocalAnswer s r := by
  by_cases hindex : 7 < x.toNat ∨ 7 < y.toNat
  · exact ⟨_, exec_getPixelTemperature_outOfRange s hindex, .indexOutOfRange s⟩
  · exact ⟨_, exec_getPixelTemperature_cell s hindex,
      .entry fun hs q hq => ⟨hs ⟨8 * x.toNat + y.toNat, by omega⟩ q hq, nofun⟩⟩

/-- R211: the two cases of GET_MATRIX. -/
theorem pix_full_or_unset (s : State) :
    (∃ cells : Vector Int 64, ∀ j : Fin 64, s.pix[j.val] = some cells[j.val]) ∨ ∃ j : Fin 64, s.pix[j.val] = none := by
  by_cases hread : ∀ j : Fin 64, s.pix[j.val].isSome = true
  · refine .inl ⟨Vector.ofFn fun j => s.pix[j.val].get (hread j), fun j => ?_⟩
    rw [Vector.getElem_ofFn, Option.some_get]
  · obtain ⟨j, hj⟩ := not_forall.1 hread
    exact .inr ⟨j, Option.not_isSome_iff_eq_none.1 hj⟩

theorem exec_getPixelTemperatureMatrix_local (s : State) :
    ∃ r, exec .getPixelTemperatureMatrix s = .next (ended s r) ∧ LocalAnswer s r := by
  rcases pix_full_or_unset s with ⟨cells, hfull⟩ | ⟨j, hunset⟩
  · exact ⟨_, exec_getPixelTemperatureMatrix_full hfull, .ok fun hs => ⟨fun j => hs j _ (hfull j), nofun⟩⟩
  · exact ⟨_, exec_getPixelTemperatureMatrix_unset hunset, .notYetRead s⟩

/-- R210: an accessor answers from the cache. -/
theorem exec_accessor {i : Instr} (h : isAccessor i = true) (s : State) :
    ∃ r, exec i s = .next (ended s r) ∧ LocalAnswer s r := by
  cases i
  case getPixelTemperatureMatrix => exact exec_getPixelTemperatureMatrix_local s
  case getPixelTemperature x y => exact exec_getPixelTemperature_local x y s
  case getThermistorTemperature =>
    exact ⟨_, exec_getThermistorTemperature s, .entry fun _ _ _ => ⟨trivial, nofun⟩⟩
  case getInterruptTable => exact ⟨_, exec_getInterruptTable s, .entry fun _ _ _ => ⟨trivial, nofun⟩⟩
  all_goals cases h

theorem exec_local {i : Instr} (h : (isCodec i || isAccessor i) = true) (s : State) :
    ∃ r, exec i s = .next (ended s r) ∧ LocalAnswer s r := by
  rcases Bool.or_eq_true_iff.1 h with hcodec | haccessor
  · obtain ⟨r, hr⟩ := exec_codec hcodec
    exact ⟨r, hr s⟩
  · exact exec_accessor haccessor s

/-- Settles O35: an accessor answers from the cache, and a codec command gives one answer for all states. -/
theorem codecAndAccessorsOnlyRespond : Obligations.CodecAndAccessorsOnlyRespond := by
  refine fun i => ⟨fun h s => ?_, fun h => ?_⟩
  · obtain ⟨r, hexec, hr⟩ := exec_local h s
    exact ⟨r, hexec, hr.notAsleep⟩
  · obtain ⟨r, hr⟩ := exec_codec h
    exact ⟨r, fun s => (hr s).1⟩

/-! ## Every command -/

theorem next_unique {o : Host.Outcome State Fault Refusal} {t t' : State} (h : o = .next t) (h' : o = .next t') : t = t' :=
  Host.Outcome.next.inj (h.symm.trans h')

/-- The command runs as `CommandRun` says. -/
def RunsToItsEnd (i : Instr) (s : State) : Prop := ∃ t, exec i s = .next t ∧ CommandRun i s t

theorem RunsToItsEnd.of_local {i : Instr} (s : State) (h : (isCodec i || isAccessor i) = true) (hplan : planned i = [])
    (hmode : ∀ code, i ≠ .setMode code) : RunsToItsEnd i s := by
  obtain ⟨r, hexec, hr⟩ := exec_local h s
  exact ⟨_, hexec, .answered hr.notBusError hr.wellFormed fun _ => ⟨hplan, hmode⟩⟩

theorem RunsToItsEnd.of_invalid {i : Instr} {s : State} (h : exec i s = .next (ended s ⟨.invalidArgument, .none⟩)) :
    RunsToItsEnd i s :=
  ⟨_, h, .refused nofun nofun rfl⟩

/-- A guarded command of one write that changes no cache. -/
theorem RunsToItsEnd.of_guardedWrite {i : Instr} {s : State} {a v : Byte}
    (h : exec i s = .next (Machine.sleepGuard false s fun s => Machine.memWrite a v s fun s => respond .none s))
    (hplan : planned i = [(.write, a)]) (hmode : ∀ code, i ≠ .setMode code) : RunsToItsEnd i s :=
  ⟨_, h, .sleepGuard fun _ => .memWrite (hplan ▸ .start i s) fun _ hu => .done hu (.nothing hmode wellFormed_ok_none)⟩

theorem setMode_runs (s : State) (code : Field) : RunsToItsEnd (.setMode code) s := by
  cases hcode : modeOfCode? s.modeCodes code with
  | none => exact .of_invalid (exec_setMode_invalid hcode)
  | some m =>
    refine ⟨_, exec_setMode_valid hcode, .sleepGuard fun hpass => .memWrite (.start _ s) fun u hu => ?_⟩
    have hwake : s.mode = .known .sleep → m = .normal :=
      fun hsleep => of_decide_eq_true (hpass.resolve_left fun hawake => hawake hsleep)
    exact .done hu (.mode rfl hcode hwake)

theorem setFpsMode_runs (s : State) (code : Field) : RunsToItsEnd (.setFpsMode code) s := by
  cases hcode : fpsModeOfCode? code with
  | none => exact .of_invalid (exec_setFpsMode_invalid s hcode)
  | some f =>
    exact ⟨_, exec_setFpsMode_valid s hcode, .sleepGuard fun _ => .memWrite (.start _ s) fun _ hu =>
      .done hu (.fps rfl)⟩

theorem enableInterrupt_runs (s : State) (enabled : Bool) (mode : Field) : RunsToItsEnd (.enableInterrupt enabled mode) s := by
  cases hmode : interruptModeOfCode? mode with
  | none => exact .of_invalid (exec_enableInterrupt_invalid enabled s hmode)
  | some k => exact .of_guardedWrite (exec_enableInterrupt_valid enabled s hmode) rfl nofun

theorem setInterruptThresholds_runs (s : State) (low high hyst : Field) :
    RunsToItsEnd (.setInterruptThresholds low high hyst) s := by
  by_cases hrange : (-2000 < low.toInt ∧ low.toInt < 2000) ∧ (-2000 < high.toInt ∧ high.toInt < 2000)
  · exact ⟨_, exec_setInterruptThresholds_valid hyst s hrange, .sleepGuard fun _ => .memWriteSeq
      (fun _ hu => .done hu (.nothing (by nofun) wellFormed_ok_none)) (.start _ s)⟩
  · exact .of_invalid (exec_setInterruptThresholds_invalid hyst s hrange)

theorem updateInterruptTable_runs (s : State) : RunsToItsEnd .updateInterruptTable s :=
  ⟨_, exec_updateInterruptTable s, .sleepGuard fun _ => .readRows (fun _ _ hu => .done hu (.table rfl))
    (planned_updateTable ▸ .start _ s)⟩

theorem updatePixelTemperatureMatrix_runs (s : State) : RunsToItsEnd .updatePixelTemperatureMatrix s :=
  ⟨_, exec_updatePixelTemperatureMatrix s, .sleepGuard fun _ => .updateCells
    (fun _ hu => .done hu (.nothing nofun wellFormed_ok_none)) (planned_updatePixels ▸ .start _ s)⟩

theorem updateThermistorTemperature_runs (s : State) : RunsToItsEnd .updateThermistorTemperature s :=
  ⟨_, exec_updateThermistorTemperature s, .sleepGuard fun _ => .memRead (.start _ s) fun _ _ hu => .memRead hu fun _ _ hv =>
    .done hv (.therm rfl)⟩

theorem exec_runsToItsEnd (i : Instr) (s : State) : RunsToItsEnd i s := by
  cases i
  case decodePixel | decodeThermistor | encodeThreshold | pixelRegisterPair => exact .of_local s rfl rfl nofun
  case getPixelTemperatureMatrix | getPixelTemperature | getThermistorTemperature | getInterruptTable =>
    exact .of_local s rfl rfl nofun
  case setMode code => exact setMode_runs s code
  case setFpsMode code => exact setFpsMode_runs s code
  case enableInterrupt enabled mode => exact enableInterrupt_runs s enabled mode
  case setInterruptThresholds low high hyst => exact setInterruptThresholds_runs s low high hyst
  case clearFlags | resetFlags | resetFlagsAndSettings => exact .of_guardedWrite rfl rfl nofun
  case getStatus =>
    exact ⟨_, rfl, .sleepGuard fun _ => .memRead (.start _ s) fun _ _ hu => .done hu (.nothing nofun ⟨trivial, nofun⟩)⟩
  case getFps =>
    refine ⟨_, rfl, .sleepGuard fun _ => .memRead (.start _ s) fun b _ hu => .done hu (.nothing nofun ⟨?_, nofun⟩)⟩
    split
    · exact .inl rfl
    · exact .inr rfl
  case updateInterruptTable => exact updateInterruptTable_runs s
  case updatePixelTemperatureMatrix => exact updatePixelTemperatureMatrix_runs s
  case updateThermistorTemperature => exact updateThermistorTemperature_runs s

theorem commandRun_of_exec {i : Instr} {s t : State} (h : exec i s = .next t) : CommandRun i s t := by
  obtain ⟨t', ht', hrun⟩ := exec_runsToItsEnd i s
  exact next_unique ht' h ▸ hrun

/-! ## What every command leaves alone -/

/-- R21, R24, R30: what only the host or the port moves. -/
theorem Underway.kept {i : Instr} {s u : State} {todo : List (TransferKind × Byte)} (h : Underway i s u todo) :
    u.devAddr = s.devAddr ∧ u.modeCodes = s.modeCodes ∧ u.port = s.port ∧ u.pos = s.pos := by
  rw [h.frame]
  exact ⟨rfl, rfl, rfl, rfl⟩

theorem Underway.mode {i : Instr} {s u : State} {todo : List (TransferKind × Byte)} (h : Underway i s u todo) :
    u.mode = s.mode := by
  rw [h.frame]

theorem Underway.therm {i : Instr} {s u : State} {todo : List (TransferKind × Byte)} (h : Underway i s u todo) :
    u.therm = s.therm := by
  rw [h.frame]

theorem Underway.itab {i : Instr} {s u : State} {todo : List (TransferKind × Byte)} (h : Underway i s u todo) :
    u.itab = s.itab := by
  rw [h.frame]

theorem CommandRun.kept {i : Instr} {s t : State} (h : CommandRun i s t) :
    t.devAddr = s.devAddr ∧ t.modeCodes = s.modeCodes ∧ t.port = s.port ∧ t.pos = s.pos := by
  cases h with
  | answered => exact ⟨rfl, rfl, rfl, rfl⟩
  | failed h => exact h.kept
  | done h hc => cases hc <;> exact h.kept

theorem CommandRun.caches {i : Instr} {s t : State} (h : CommandRun i s t) :
    (i ≠ .updatePixelTemperatureMatrix → t.pix = s.pix) ∧ (i ≠ .updateThermistorTemperature → t.therm = s.therm) ∧
      (i ≠ .updateInterruptTable → t.itab = s.itab) := by
  cases h with
  | answered => exact ⟨fun _ => rfl, fun _ => rfl, fun _ => rfl⟩
  | failed h => exact ⟨h.pix, fun _ => h.therm, fun _ => h.itab⟩
  | done h hc =>
    cases hc with
    | therm hi => exact ⟨h.pix, fun hne => absurd hi hne, fun _ => h.itab⟩
    | table hi => exact ⟨h.pix, fun _ => h.therm, fun hne => absurd hi hne⟩
    | nothing | mode | fps => exact ⟨h.pix, fun _ => h.therm, fun _ => h.itab⟩

/-- Settles O44: S.therm and S.itab are written at the end of their own update, a cell in the course of its own. -/
theorem cachesChangeOnlyByTheirUpdate : Obligations.CachesChangeOnlyByTheirUpdate :=
  fun _ _ _ hexec => (commandRun_of_exec hexec).caches

/-! ## How a command ends -/

/-- A command that ends leaves the block Idle with a response of its status's form, and RD and the pixels in their domains. -/
theorem CommandRun.ends {i : Instr} {s t : State} (h : CommandRun i s t) :
    ∃ r, t.resp = some r ∧ t.busy = .idle ∧ (s.PixelsInRange → r.WellFormed ∧ t.PixelsInRange) ∧
      (s.oracle.WellFormed → t.oracle.WellFormed) := by
  cases h with
  | answered _ hwf => exact ⟨_, rfl, rfl, fun hs => ⟨hwf hs, hs⟩, id⟩
  | failed h =>
    exact ⟨_, rfl, rfl, fun hs => ⟨⟨_, _, rfl⟩, h.inRange hs⟩, fun hs => BusOracle.after_wellFormed _ _ (h.oracle hs)⟩
  | done h hc =>
    have hwf := hc.wellFormed
    cases hc <;> exact ⟨_, rfl, rfl, fun hs => ⟨hwf, h.inRange hs⟩, h.oracle⟩

theorem Status.code_inj : ∀ a b : Status, a.code = b.code → a = b := by
  intro a b
  cases a <;> cases b <;> decide

theorem Status.code_ne_seven (a : Status) : a.code ≠ 7 := by
  cases a <;> decide

/-- Settles O48: each end of a command is one response, of the form of its status. -/
theorem everyCommandEndsWithOneResponse : Obligations.EveryCommandEndsWithOneResponse := by
  refine ⟨fun s i hpix => ?_, Status.code_inj, Status.code_ne_seven⟩
  obtain ⟨t, hexec, hrun⟩ := exec_runsToItsEnd i s
  obtain ⟨r, hresp, hidle, hwf, -⟩ := hrun.ends
  exact ⟨t, r, hexec, hresp, hidle, (hwf hpix).1⟩

/-! ## Steps -/

theorem step_waits {s : State} (h : fetch s = none) : step s = .next s := by
  rw [step, h]

theorem step_runs {s : State} {w : Word} {rest : List Word} {i : Instr} (hb : s.busy = .idle) (hp : s.port = w :: rest)
    (hd : decode w = .ok i) : step s = exec i (accept rest s) := by
  simp only [step, fetch_some hb hp, hd]

theorem step_refuses {s : State} {w : Word} {rest : List Word} {e : Illegal} (hb : s.busy = .idle) (hp : s.port = w :: rest)
    (hd : decode w = .error e) : step s = .next (ended (accept rest s) ⟨.illegalCommand, .none⟩) := by
  simp only [step, fetch_some hb hp, hd]
  rfl

/-- Settles O6: the word decodes, so the step is its command's meaning. -/
theorem stepRunsTheDecodedCommand : Obligations.StepRunsTheDecodedCommand :=
  fun _ _ _ _ hb hp hd => step_runs hb hp hd

/-- Settles O7: the issued word stands first on the port of an Idle block, and decodes to its command. -/
theorem issuedCommandRunsNext : Obligations.IssuedCommandRunsNext := by
  intro s i
  have hword : BitVec.ofNat 64 ((encode i).toNat % 2 ^ 64) = encode i := by
    rw [Nat.mod_eq_of_lt (encode i).isLt, BitVec.ofNat_toNat, BitVec.setWidth_eq]
  rw [State.withFetchWord, hword]
  exact step_runs rfl rfl (decode_encode i)

/-- Settles O9: in both cases nothing is fetched. -/
theorem blockWaitsWithoutACommandToTake : Obligations.BlockWaitsWithoutACommandToTake :=
  fun _ h => step_waits (h.elim fetch_busy fetch_empty)

/-- A step that takes a word brings its command to its end. The refusal of a word is an end that any command may have. -/
theorem step_takes {s : State} {w : Word} {rest : List Word} (hb : s.busy = .idle) (hp : s.port = w :: rest) :
    ∃ t, step s = .next t ∧ ∃ i, CommandRun i (accept rest s) t := by
  cases hd : decode w with
  | ok i =>
    obtain ⟨t, hexec, hrun⟩ := exec_runsToItsEnd i (accept rest s)
    exact ⟨t, (step_runs hb hp hd).trans hexec, i, hrun⟩
  | error e => exact ⟨_, step_refuses hb hp hd, .getStatus, .refused nofun nofun rfl⟩

/-- All that a step can do. -/
theorem step_cases {s t : State} (h : step s = .next t) : t = s ∨ ∃ i rest, CommandRun i (accept rest s) t := by
  rcases fetch_cases s with ⟨hnone, -⟩ | ⟨w, rest, hb, hp, -⟩
  · exact .inl (next_unique h (step_waits hnone))
  · obtain ⟨t', ht', i, hrun⟩ := step_takes hb hp
    exact .inr ⟨i, rest, next_unique ht' h ▸ hrun⟩

/-- Settles O8: taking the word counts it, and its command, or its refusal, ends Idle with a response. -/
theorem everyCommandAdvancesTheIndexByOne : Obligations.EveryCommandAdvancesTheIndexByOne := by
  intro s w rest hb hp
  obtain ⟨t, hstep, i, hrun⟩ := step_takes hb hp
  obtain ⟨-, -, hport, hpos⟩ := hrun.kept
  obtain ⟨r, hresp, hidle, -⟩ := hrun.ends
  exact ⟨t, r, hstep, hpos, hport, hidle, hresp⟩

/-- Settles O45: no end of a command moves these four, and taking a word moves only the port and the index. -/
theorem noCommandWritesTheDeviceAddress : Obligations.NoCommandWritesTheDeviceAddress := by
  refine ⟨fun _ _ _ hexec => (commandRun_of_exec hexec).kept, fun s t hstep => ?_⟩
  rcases step_cases hstep with rfl | ⟨i, rest, hrun⟩
  · exact ⟨rfl, rfl⟩
  · obtain ⟨haddr, hcodes, -⟩ := hrun.kept
    exact ⟨haddr, hcodes⟩

/-! ## The invariant -/

theorem State.construct_inv (addr : DevAddr) {codes : ModeCodes} (h : codes.Injective) : (State.construct addr codes).Inv where
  idle := rfl
  codes := h
  pixels j q hq := by
    rw [construct_pix_getElem] at hq
    cases hq
  response := nofun
  oracle := trivial

theorem defaultModeCodes_injective : Config.defaultModeCodes.Injective := by
  intro m n
  cases m <;> cases n <;> decide

/-- Settles O11: nothing is cached, answered or listed yet, and the default codes are four distinct bytes. -/
theorem resetSatisfiesTheInvariant : Obligations.ResetSatisfiesTheInvariant :=
  ⟨fun addr _ => State.construct_inv addr, State.construct_inv _ defaultModeCodes_injective⟩

/-- Whatever state a command is run in, Busy as it is then, its end meets the invariant. -/
theorem CommandRun.inv {i : Instr} {s t : State} (h : CommandRun i s t) (hcodes : s.modeCodes.Injective)
    (hpixels : s.PixelsInRange) (horacle : s.oracle.WellFormed) : t.Inv := by
  obtain ⟨-, hkept, -⟩ := h.kept
  obtain ⟨r, hresp, hidle, hrange, hwf⟩ := h.ends
  obtain ⟨hr, ht⟩ := hrange hpixels
  exact ⟨hidle, hkept ▸ hcodes, ht, fun r' hr' => Option.some.inj (hresp.symm.trans hr') ▸ hr, hwf horacle⟩

/-- Settles O12: a waiting step changes nothing, and a step that takes a word ends a command. -/
theorem everyStepKeepsTheInvariant : Obligations.EveryStepKeepsTheInvariant := by
  intro s t hinv hstep
  rcases step_cases hstep with rfl | ⟨i, rest, hrun⟩
  · exact hinv
  · exact hrun.inv hinv.codes hinv.pixels hinv.oracle

/-! ## The mode -/

/-- S.mode is as it was and no SET_MODE has ended OK, or a SET_MODE has ended OK and S.mode is its target. -/
theorem CommandRun.mode_cases {i : Instr} {s t : State} (h : CommandRun i s t) :
    (t.mode = s.mode ∧ ∀ code p, i = .setMode code → t.resp ≠ some ⟨.ok, p⟩) ∨
    ∃ code m, i = .setMode code ∧ modeOfCode? s.modeCodes code = some m ∧ (s.mode = .known .sleep → m = .normal) ∧
      t.mode = .known m ∧ t.resp = some ⟨.ok, .none⟩ := by
  cases h with
  | answered _ _ hok =>
    refine .inl ⟨rfl, fun code p hi hresp => ?_⟩
    exact (hok (congrArg Response.status (Option.some.inj hresp))).2 code hi
  | failed h => exact .inl ⟨h.mode, fun _ _ _ => nofun⟩
  | done h hc =>
    cases hc with
    | mode hi hm hwake => exact .inr ⟨_, _, hi, hm, hwake, rfl, rfl⟩
    | nothing hi => exact .inl ⟨h.mode, fun code _ hcode => absurd hcode (hi code)⟩
    | fps hi | therm hi | table hi => exact .inl ⟨h.mode, fun _ _ hcode => nomatch hi.symm.trans hcode⟩

/-- Settles O40: the one state write of a SET_MODE is S.mode, set to the mode that its code names. -/
theorem modeChangesOnlyBySetMode : Obligations.ModeChangesOnlyBySetMode := by
  intro s t i _ hexec
  rcases (commandRun_of_exec hexec).mode_cases with ⟨hmode, hend⟩ | ⟨code, m, rfl, hm, hwake, hmode, hresp⟩
  · exact ⟨.inl hmode, fun code hi => ⟨fun hok => absurd hok (hend code _ hi), fun _ => hmode⟩⟩
  · have hcode := modeOfCode?_some hm
    refine ⟨.inr ⟨m, by rw [← hcode], hmode⟩, ?_⟩
    rintro _ ⟨⟩
    exact ⟨fun _ => ⟨m, hcode, hmode, hwake⟩, fun hne => absurd hresp hne⟩

/-! ## The transactions -/

/-- Settles O41: a command ends at its first failed transaction, and with no other error of the bus. -/
theorem busErrorNamesTheFailedTransaction : Obligations.BusErrorNamesTheFailedTransaction := by
  intro s t i hexec
  cases commandRun_of_exec hexec with
  | answered hbus =>
    refine ⟨[], (List.append_nil _).symm, .inl ⟨nofun, fun a k hresp => ?_⟩⟩
    exact hbus (congrArg Response.status (Option.some.inj hresp))
  | @failed u rq todo h =>
    obtain ⟨evs, htrace, hok, -⟩ := h.issue .fault
    refine ⟨_, htrace, .inr ⟨evs, _, rfl, hok, eventFailed_fault rq, ?_⟩⟩
    rw [← entry_busEvent rq .fault]
    rfl
  | done h hc =>
    obtain ⟨evs, htrace, hok, -⟩ := h.issued
    cases hc <;> exact ⟨evs, htrace, .inl ⟨hok, fun _ _ => nofun⟩⟩

/-- Settles O42: what is issued and what is still to come are together the command's row, and nothing is to come at OK. -/
theorem transactionsFollowTheCommandsPlan : Obligations.TransactionsFollowTheCommandsPlan := by
  intro s t i hexec
  cases commandRun_of_exec hexec with
  | answered _ _ hok =>
    refine ⟨[], (List.append_nil _).symm, List.nil_prefix, fun p hresp => ?_⟩
    exact (hok (congrArg Response.status (Option.some.inj hresp))).1.symm
  | failed h =>
    obtain ⟨evs, htrace, -, hplan⟩ := h.issue .fault
    exact ⟨_, htrace, ⟨_, hplan⟩, fun _ => nofun⟩
  | done h hc =>
    obtain ⟨evs, htrace, -, hplan⟩ := h.issued
    rw [List.append_nil] at hplan
    cases hc <;> exact ⟨evs, htrace, hplan ▸ List.prefix_rfl, fun _ _ => hplan⟩

/-- SET_MODE to Normal is the one bus command that a sleeping block lets through. -/
theorem exec_wake_trace {s t : State} {code : Field} (hcode : code = s.modeCodes.normal.setWidth 16)
    (hexec : exec (.setMode code) s = .next t) : t.trace = s.trace ++ [.writeOk s.devAddr 0x00 s.modeCodes.normal] ∨
      t.trace = s.trace ++ [.writeFault s.devAddr 0x00 s.modeCodes.normal] := by
  have hmode : modeOfCode? s.modeCodes code = some .normal := if_pos hcode
  obtain ⟨hfails, hdone⟩ := exec_write (exec_setMode_valid hmode) (.inr rfl)
  by_cases hfail : failsWrite s regMode (s.modeCodes.code .normal)
  · exact .inr (next_unique (hfails hfail) hexec ▸ rfl)
  · exact .inl (next_unique (hdone hfail) hexec ▸ rfl)

/-- Settles O39: asleep, a command is local, or refused by its arguments or the guard, or the wake. -/
theorem sleepingBlockIssuesOnlyTheWakeWrite : Obligations.SleepingBlockIssuesOnlyTheWakeWrite := by
  intro s t i hsleep hexec
  by_cases hlocal : (isCodec i || isAccessor i) = true
  · obtain ⟨r, hr, -⟩ := exec_local hlocal s
    exact .inl (next_unique hr hexec ▸ rfl)
  by_cases hargs : argumentsValid s.modeCodes i
  · by_cases hwake : isWake s.modeCodes i
    · cases i
      case setMode code => exact .inr (exec_wake_trace hwake hexec)
      all_goals exact hwake.elim
    · obtain ⟨hasleep, hend⟩ := exec_asleepOnlyByGuard s i t hexec
      have hbus : isBusCommand i = true := by simpa [isBusCommand] using hlocal
      exact .inl (hend (hasleep.2 ⟨hbus, hargs, hsleep, hwake⟩) ▸ rfl)
  · obtain ⟨r, rfl⟩ := (argumentErrorsComeBeforeAnythingElse s t i hexec).2.2 hargs
    exact .inl rfl

end Sys2Proof.Machine
end

/-! # 10_state.md: what no command reads (O46, O47)

Two runs of one command from states that differ in S.fps and S.resp only are compared step by step. They issue the same
transactions, and end alike but for S.fps: the other value is still there, or both runs have set S.fps to the same one. -/
section
namespace Sys2Proof.Machine

/-! ## Two runs side by side -/

/-- The same state with another frame rate and another last response. -/
def State.withCopies (f : CachedFps) (r : Option Response) (s : State) : State := { s with fps := f, resp := r }

/-- The ends of two runs of `i`, whose S.fps were `f₀` and `f`. -/
inductive EndsAlike (i : Instr) (f₀ f : CachedFps) : State → State → Prop
  | kept {t : State} (h : t.fps = f₀) : EndsAlike i f₀ f t { t with fps := f }
  | set {t : State} {code : Field} (hi : i = .setFpsMode code) : EndsAlike i f₀ f t t

/-- What is left of the command, run from a state and from one with other copies, ends alike. -/
def Blind (i : Instr) (f₀ f : CachedFps) (r : Option Response) (k : State → State) : Prop :=
  ∀ u, u.fps = f₀ → EndsAlike i f₀ f (k u) (k (u.withCopies f r))

section
variable {i : Instr} {f₀ f : CachedFps} {r : Option Response}

theorem Blind.deliver (x : Response) : Blind i f₀ f r (Machine.deliver x) :=
  fun _ hu => .kept hu

/-- An answer after a state write that leaves the copies alone. -/
theorem Blind.respondAfter {p : Payload} {g : State → State} (hfps : ∀ u, (g u).fps = u.fps)
    (hg : ∀ u, g (u.withCopies f r) = (g u).withCopies f r) : Blind i f₀ f r fun u => respond p (g u) := by
  intro u hu
  dsimp only
  rw [hg]
  exact .kept (t := respond p (g u)) ((hfps u).trans hu)

theorem Blind.memRead {a : Byte} {k : Byte → State → State} (hk : ∀ b, Blind i f₀ f r (k b)) :
    Blind i f₀ f r fun u => Machine.memRead a u k := by
  intro u hu
  dsimp only
  cases hans : busAnswer u (.read u.devAddr a) with
  | fault =>
    rw [memRead_fault k hans, memRead_fault k (s := u.withCopies f r) hans]
    exact .kept hu
  | ok b =>
    rw [memRead_ok k hans, memRead_ok k (s := u.withCopies f r) hans]
    exact hk b _ hu

theorem Blind.memWrite {a v : Byte} {k : State → State} (hk : Blind i f₀ f r k) :
    Blind i f₀ f r fun u => Machine.memWrite a v u k := by
  intro u hu
  dsimp only
  by_cases hans : busAnswer u (.write u.devAddr a v) = .fault
  · rw [memWrite_fault k hans, memWrite_fault k (s := u.withCopies f r) hans]
    exact .kept hu
  · rw [memWrite_ok k hans, memWrite_ok k (s := u.withCopies f r) hans]
    exact hk _ hu

theorem Blind.sleepGuard {w : Bool} {k : State → State} (hk : Blind i f₀ f r k) :
    Blind i f₀ f r fun u => Machine.sleepGuard w u k := by
  intro u hu
  dsimp only
  by_cases hstop : u.mode = .known .sleep ∧ w = false
  · obtain ⟨hsleep, rfl⟩ := hstop
    rw [sleepGuard_asleep k hsleep, sleepGuard_asleep k (s := u.withCopies f r) hsleep]
    exact .kept hu
  · rw [not_and_or, Bool.not_eq_false] at hstop
    rw [sleepGuard_pass k hstop, sleepGuard_pass k (s := u.withCopies f r) hstop]
    exact hk u hu

theorem Blind.memWriteSeq {k : State → State} (hk : Blind i f₀ f r k) :
    ∀ ws : List (Byte × Byte), Blind i f₀ f r fun u => Machine.memWriteSeq ws u k
  | [] => hk
  | (_, _) :: ws => .memWrite (Blind.memWriteSeq hk ws)

theorem Blind.readRows {k : Vector Byte 8 → State → State} (hk : ∀ v, Blind i f₀ f r (k v)) :
    ∀ (l : List (Fin 8)) (v : Vector Byte 8), Blind i f₀ f r fun u => Machine.readRows l v u k
  | [], v => hk v
  | _ :: l, _ => .memRead fun _ => Blind.readRows hk l _

theorem Blind.updateCells {k : State → State} (hk : Blind i f₀ f r k) :
    ∀ l : List (Fin 64), Blind i f₀ f r fun u => Machine.updateCells l u k
  | [] => hk
  | j :: l => .memRead fun lsb => .memRead fun msb u hu =>
      Blind.updateCells hk l (u.setPixel j (decodePixelFn lsb msb)) hu

end

/-! ## Every command -/

/-- Two runs of `i`, from `s` and from `s` with other copies, end alike. -/
def RunsAlike (i : Instr) (s : State) (f : CachedFps) (r : Option Response) : Prop :=
  ∃ t t', exec i s = .next t ∧ exec i (s.withCopies f r) = .next t' ∧ EndsAlike i s.fps f t t'

section
variable {i : Instr} {s : State} {f : CachedFps} {r : Option Response}

theorem RunsAlike.of_blind {k : State → State} (h : exec i s = .next (k s))
    (h' : exec i (s.withCopies f r) = .next (k (s.withCopies f r))) (hk : Blind i s.fps f r k) : RunsAlike i s f r :=
  ⟨_, _, h, h', hk s rfl⟩

/-- Both runs answer the same at once. -/
theorem RunsAlike.of_answer {x : Response} (h : exec i s = .next (ended s x))
    (h' : exec i (s.withCopies f r) = .next (ended (s.withCopies f r) x)) : RunsAlike i s f r :=
  .of_blind (k := deliver x) h h' (.deliver x)

theorem RunsAlike.of_codec (h : isCodec i = true) : RunsAlike i s f r := by
  obtain ⟨x, hx⟩ := exec_codec h
  exact .of_answer (hx s).1 (hx _).1

end

section
variable (s : State) (f : CachedFps) (r : Option Response)

theorem setMode_runsAlike (code : Field) : RunsAlike (.setMode code) s f r := by
  cases hcode : modeOfCode? s.modeCodes code with
  | none => exact .of_answer (exec_setMode_invalid hcode) (exec_setMode_invalid hcode)
  | some m =>
    have hend : Blind (.setMode code) s.fps f r fun u => respond .none (u.setMode m) :=
      .respondAfter (fun _ => rfl) fun _ => rfl
    exact .of_blind (exec_setMode_valid hcode) (exec_setMode_valid (s := s.withCopies f r) hcode) hend.memWrite.sleepGuard

theorem setFpsMode_runsAlike (code : Field) : RunsAlike (.setFpsMode code) s f r := by
  cases hcode : fpsModeOfCode? code with
  | none => exact .of_answer (exec_setFpsMode_invalid s hcode) (exec_setFpsMode_invalid _ hcode)
  | some g =>
    exact .of_blind (exec_setFpsMode_valid s hcode) (exec_setFpsMode_valid _ hcode)
      (.sleepGuard (.memWrite fun _ _ => .set rfl))

theorem enableInterrupt_runsAlike (enabled : Bool) (mode : Field) : RunsAlike (.enableInterrupt enabled mode) s f r := by
  cases hmode : interruptModeOfCode? mode with
  | none => exact .of_answer (exec_enableInterrupt_invalid enabled s hmode) (exec_enableInterrupt_invalid enabled _ hmode)
  | some k =>
    exact .of_blind (exec_enableInterrupt_valid enabled s hmode) (exec_enableInterrupt_valid enabled _ hmode)
      (.sleepGuard (.memWrite (.deliver _)))

theorem setInterruptThresholds_runsAlike (low high hyst : Field) :
    RunsAlike (.setInterruptThresholds low high hyst) s f r := by
  by_cases hrange : (-2000 < low.toInt ∧ low.toInt < 2000) ∧ (-2000 < high.toInt ∧ high.toInt < 2000)
  · exact .of_blind (exec_setInterruptThresholds_valid hyst s hrange) (exec_setInterruptThresholds_valid hyst _ hrange)
      (.sleepGuard (.memWriteSeq (.deliver _) _))
  · exact .of_answer (exec_setInterruptThresholds_invalid hyst s hrange) (exec_setInterruptThresholds_invalid hyst _ hrange)

theorem getPixelTemperature_runsAlike (x y : Field) : RunsAlike (.getPixelTemperature x y) s f r := by
  by_cases hindex : 7 < x.toNat ∨ 7 < y.toNat
  · exact .of_answer (exec_getPixelTemperature_outOfRange s hindex) (exec_getPixelTemperature_outOfRange _ hindex)
  · exact .of_answer (exec_getPixelTemperature_cell s hindex) (exec_getPixelTemperature_cell (s.withCopies f r) hindex)

theorem getPixelTemperatureMatrix_runsAlike : RunsAlike .getPixelTemperatureMatrix s f r := by
  rcases pix_full_or_unset s with ⟨cells, hfull⟩ | ⟨j, hunset⟩
  · exact .of_answer (exec_getPixelTemperatureMatrix_full hfull)
      (exec_getPixelTemperatureMatrix_full (s := s.withCopies f r) hfull)
  · exact .of_answer (exec_getPixelTemperatureMatrix_unset hunset)
      (exec_getPixelTemperatureMatrix_unset (s := s.withCopies f r) hunset)

theorem exec_runsAlike (i : Instr) : RunsAlike i s f r := by
  cases i
  case decodePixel | decodeThermistor | encodeThreshold | pixelRegisterPair => exact .of_codec rfl
  case setMode code => exact setMode_runsAlike s f r code
  case setFpsMode code => exact setFpsMode_runsAlike s f r code
  case enableInterrupt enabled mode => exact enableInterrupt_runsAlike s f r enabled mode
  case setInterruptThresholds low high hyst => exact setInterruptThresholds_runsAlike s f r low high hyst
  case clearFlags | resetFlags | resetFlagsAndSettings => exact .of_blind rfl rfl (.sleepGuard (.memWrite (.deliver _)))
  case getStatus | getFps => exact .of_blind rfl rfl (.sleepGuard (.memRead fun _ => .deliver _))
  case updateInterruptTable =>
    have hend (v : Vector Byte 8) : Blind .updateInterruptTable s.fps f r fun u => respond .none (u.setTable (tableOfRows v)) :=
      .respondAfter (fun _ => rfl) fun _ => rfl
    exact .of_blind (exec_updateInterruptTable s) (exec_updateInterruptTable _) (.sleepGuard (.readRows hend _ _))
  case updatePixelTemperatureMatrix =>
    exact .of_blind (exec_updatePixelTemperatureMatrix s) (exec_updatePixelTemperatureMatrix _)
      (.sleepGuard (.updateCells (.deliver _) _))
  case updateThermistorTemperature =>
    have hend (lsb msb : Byte) : Blind .updateThermistorTemperature s.fps f r fun u =>
        respond .none (u.setTherm (decodeThermFn lsb msb)) := .respondAfter (fun _ => rfl) fun _ => rfl
    exact .of_blind (exec_updateThermistorTemperature s) (exec_updateThermistorTemperature _)
      (.sleepGuard (.memRead fun lsb => .memRead fun msb => hend lsb msb))
  case getPixelTemperatureMatrix => exact getPixelTemperatureMatrix_runsAlike s f r
  case getPixelTemperature x y => exact getPixelTemperature_runsAlike s f r x y
  case getThermistorTemperature =>
    exact .of_answer (exec_getThermistorTemperature s) (exec_getThermistorTemperature (s.withCopies f r))
  case getInterruptTable => exact .of_answer (exec_getInterruptTable s) (exec_getInterruptTable (s.withCopies f r))

end

/-- Settles O46: with the same last response, the runs end alike; only a SET_FPS may set S.fps. -/
theorem frameRateCopyIsReadByNothing : Obligations.FrameRateCopyIsReadByNothing := by
  intro s t i f hexec
  obtain ⟨t₁, t', ht₁, ht', halike⟩ := exec_runsAlike s f s.resp i
  obtain rfl := next_unique ht₁ hexec
  cases halike with
  | kept hfps => exact ⟨fun _ => ⟨hfps, ht'⟩, f, ht'⟩
  | set hi => exact ⟨fun hne => absurd hi (hne _), t₁.fps, ht'⟩

/-- Settles O47: with the same frame rate, the runs end in one state. -/
theorem lastResponseChangesNoCommand : Obligations.LastResponseChangesNoCommand := by
  intro s i r
  obtain ⟨t, t', ht, ht', halike⟩ := exec_runsAlike s s.fps r i
  refine ht'.trans (Eq.trans ?_ ht.symm)
  cases halike with
  | kept hfps => rw [← hfps]
  | set => rfl

end Sys2Proof.Machine
end

/-! # 40_codec.md, 20_memory.md, 95_test_vectors.md: readings and addresses (O17, O18, O19, O31)

Two numbers that determine each other: a threshold's 12-bit field and the reading it decodes to, and a cell and the addresses of its
pair. -/
section
namespace Sys2Proof.Machine

/-! ## Thresholds read back as pixels -/

/-- The bytes of a 12-bit field decode to the field read as signed (R122, R127). -/
theorem pixelOf_threshold (t : Int) : pixelOf (thresholdLow t) (thresholdHigh t) =
    if thresholdField t < 2048 then (thresholdField t : Int) else (thresholdField t : Int) - 4096 := by
  have hlt := thresholdField_lt t
  have hlow : (thresholdLow t).toNat = thresholdField t % 256 := by
    rw [thresholdLow, BitVec.toNat_ofNat]
    omega
  have hhigh : (thresholdHigh t).toNat = thresholdField t / 256 := by
    rw [thresholdHigh, BitVec.toNat_ofNat]
    omega
  have hunion : 256 * (thresholdField t / 256 % 16) + thresholdField t % 256 = thresholdField t := by omega
  simp only [pixelOf, hlow, hhigh, hunion]

/-- "m <= 1311" for a 16-bit operand. -/
theorem thresholdMagnitude_le (t : Field) : thresholdMagnitude t.toInt ≤ 1311 := by
  have hlow := BitVec.le_toInt t
  have hhigh := BitVec.toInt_lt (x := t)
  rw [thresholdMagnitude]
  omega

/-- A magnitude below 2048 keeps its sign through the 12-bit field. -/
theorem pixelOf_threshold_eq {t : Int} (h : thresholdMagnitude t < 2048) : pixelOf (thresholdLow t) (thresholdHigh t) =
    if 0 ≤ t then (thresholdMagnitude t : Int) else -(thresholdMagnitude t : Int) := by
  rw [pixelOf_threshold, thresholdField]
  split
  case isTrue => split <;> omega
  case isFalse => split <;> omega

/-- R127: m is |t| / 25 to the nearest integer. -/
theorem thresholdMagnitude_near (t : Int) :
    2 * (25 * (if 0 ≤ t then (thresholdMagnitude t : Int) else -(thresholdMagnitude t : Int)) - t).natAbs ≤ 25 := by
  rw [thresholdMagnitude]
  split <;> omega

/-- Settles O17: the two bytes are R127's, their field reads back as its signed magnitude, and that is the nearest quarter degree. -/
theorem thresholdRoundTripsThroughThePixelDecoder : Obligations.ThresholdRoundTripsThroughThePixelDecoder := by
  intro s t b0 b1 hexec
  rw [exec_encodeThreshold, next_ended_ok_inj, Payload.bytes2.injEq] at hexec
  obtain ⟨rfl, rfl⟩ := hexec
  have hle := thresholdMagnitude_le t
  exact ⟨hle, _, exec_decodePixel _ _ s, pixelOf_threshold_eq (by omega),
    by rw [pixelOf_threshold_eq (by omega)]; exact thresholdMagnitude_near t.toInt⟩

/-! ## The pairs of the pixels -/

theorem pixelRegisterPairFn_inRange {row col : Nat} (hrow : row ≤ 7) (hcol : col ≤ 7) : pixelRegisterPairFn row col =
    (BitVec.ofNat 8 (0x80 + 2 * (8 * row + col)), BitVec.ofNat 8 (0x81 + 2 * (8 * row + col))) := by
  obtain ⟨hlsb, hmsb⟩ := pixelRegisterPairFn_eq row col hrow hcol
  refine Prod.ext (BitVec.eq_of_toNat_eq ?_) (BitVec.eq_of_toNat_eq ?_)
  · rw [hlsb, BitVec.toNat_ofNat]
    omega
  · rw [hmsb, BitVec.toNat_ofNat]
    omega

/-- Settles O18: the two sides of the index check, and the pair's addresses for indices up to 7. -/
theorem pixelPairAnswersTheRegisterPair : Obligations.PixelPairAnswersTheRegisterPair := by
  refine fun s row col => ⟨spells_of_command rfl, fun hrow hcol => ?_, exec_pixelRegisterPair_outOfRange s⟩
  rw [exec_pixelRegisterPair_inRange s (by omega), pixelRegisterPairFn_inRange hrow hcol]

/-- The cell whose pair holds an address: half the distance from 0x80, by row and column. -/
theorem pair_address_iff {a : Byte} (ha : 0x80 ≤ a.toNat) (p : Fin 8 × Fin 8) :
    ((a.toNat % 2 = 0 ∧ (pixelRegisterPairFn p.1.val p.2.val).1 = a) ∨
      (a.toNat % 2 = 1 ∧ (pixelRegisterPairFn p.1.val p.2.val).2 = a)) ↔
      8 * p.1.val + p.2.val = (a.toNat - 0x80) / 2 := by
  obtain ⟨hlsb, hmsb⟩ := pixelRegisterPairFn_eq p.1.val p.2.val (by omega) (by omega)
  rw [← BitVec.toNat_inj, ← BitVec.toNat_inj, hlsb, hmsb]
  omega

/-- Settles O19: the cell's number has one row and one column. -/
theorem pixelPairsTileTheUpperRegisters : Obligations.PixelPairsTileTheUpperRegisters := by
  intro a ha
  have hlt := a.isLt
  simp only [pair_address_iff ha]
  refine ⟨(⟨(a.toNat - 0x80) / 2 / 8, by omega⟩, ⟨(a.toNat - 0x80) / 2 % 8, by omega⟩), by dsimp only; omega, ?_⟩
  intro p hp
  exact Prod.ext (Fin.ext (by dsimp only; omega)) (Fin.ext (by dsimp only; omega))

/-! ## An update, then a reading -/

/-- Settles O31: the update commits every cell's decoding, and the accessor answers the cell. -/
theorem getPixelAnswersWhatTheUpdateRead : Obligations.GetPixelAnswersWhatTheUpdateRead := by
  intro s t lo hi row col hawake hserves hexec
  obtain ⟨-, -, hupdate⟩ := updatePixelsCommitsCellByCell s
  obtain ⟨hdone, -⟩ := hupdate hawake lo hi
  obtain rfl := next_unique (hdone hserves) hexec
  have hindex (x : Fin 8) : (BitVec.ofNat 16 x.val).toNat = x.val := by
    rw [BitVec.toNat_ofNat]
    omega
  obtain ⟨-, -, hcell⟩ := getPixelAnswersOneCell _ (BitVec.ofNat 16 row.val) (BitVec.ofNat 16 col.val)
  exact (hcell row col (hindex row) (hindex col)).2 _ (Vector.getElem_ofFn _)

end Sys2Proof.Machine
end

/-! # 30_encoding.md, 20_memory.md: payloads as numbers and RD as bytes (O49, O50)

A packing is its parts as the digits of one number: a payload of few parts is a sum of weighted parts, and a matrix or a table is a
number of 64 digits in base 2^12 or 2. So width and faithfulness are the bounds and the uniqueness of digits. -/
section
namespace Sys2Proof.Machine

/-! ## Parts side by side -/

/-- A part shifted above another one, as a sum. -/
theorem shiftLeft_or_eq {low k : Nat} (high : Nat) (h : low < 2 ^ k) : high <<< k ||| low = high * 2 ^ k + low := by
  rw [← Nat.shiftLeft_add_eq_or_of_lt h, Nat.shiftLeft_eq]

theorem packed_therm (v : ThermValue) :
    (Payload.therm v).packed = v.neg.toNat * 2 ^ 11 + v.ip.toNat * 2 ^ 4 + v.fn.toNat := by
  have hip := v.ip.isLt
  have hfn := v.fn.isLt
  rw [Payload.packed, Nat.or_assoc, shiftLeft_or_eq _ hfn, shiftLeft_or_eq _ (by omega), Nat.add_assoc]

theorem packed_bytes2 (b0 b1 : Byte) : (Payload.bytes2 b0 b1).packed = b1.toNat * 2 ^ 8 + b0.toNat :=
  shiftLeft_or_eq _ b0.isLt

theorem packed_addr2 (lsb msb : Byte) : (Payload.addr2 lsb msb).packed = msb.toNat * 2 ^ 8 + lsb.toNat :=
  shiftLeft_or_eq _ lsb.isLt

theorem packed_buserr (a : Byte) (k : TransferKind) : (Payload.buserr a k).packed = kindNumber k * 2 ^ 8 + a.toNat :=
  shiftLeft_or_eq _ a.isLt

theorem packed_status3 (therm pixel interrupt : Bool) :
    (Payload.status3 therm pixel interrupt).packed = 4 * therm.toNat + 2 * pixel.toNat + interrupt.toNat := by
  cases therm <;> cases pixel <;> cases interrupt <;> rfl

theorem kindNumber_lt (k : TransferKind) : kindNumber k < 2 := by
  cases k <;> decide

theorem kindNumber_inj {k k' : TransferKind} (h : kindNumber k = kindNumber k') : k = k' := by
  cases k <;> cases k' <;> simp [kindNumber] at h ⊢

/-! ## Readings and cells -/

theorem pixelPacked_lt (q : Int) : pixelPacked q < 2 ^ 12 := by
  rw [pixelPacked]
  omega

/-- Twelve bits hold a PixelValue (00_scope.md R14). -/
theorem pixelPacked_inj {q q' : Int} (hq : PixelInRange q) (hq' : PixelInRange q') (h : pixelPacked q = pixelPacked q') :
    q = q' := by
  obtain ⟨hlow, hhigh⟩ := hq
  obtain ⟨hlow', hhigh'⟩ := hq'
  rw [pixelPacked, pixelPacked] at h
  omega

/-- Packed cells are the digits of a number, the first the lowest. -/
theorem packCells_eq_ofDigits (w : Nat) : ∀ l : List Nat, packCells w l = Nat.ofDigits (2 ^ w) l
  | [] => rfl
  | x :: l => by rw [packCells, packCells_eq_ofDigits w l, Nat.ofDigits_cons]

section
variable {α : Type} {w : Nat} {f : α → Nat}

theorem packCells_lt {n : Nat} (hn : n = w * 64) (hw : 0 < w) (hf : ∀ x, f x < 2 ^ w) (cells : Vector α 64) :
    packCells w (cells.toList.map f) < 2 ^ n := by
  have hbase : 1 < 2 ^ w := Nat.one_lt_two_pow hw.ne'
  have hdigits : ∀ x ∈ cells.toList.map f, x < 2 ^ w := List.forall_mem_map.2 fun x _ => hf x
  have hlt := Nat.ofDigits_lt_base_pow_length hbase hdigits
  rwa [List.length_map, Vector.length_toList, ← Nat.pow_mul, ← packCells_eq_ofDigits, ← hn] at hlt

/-- Cells that pack alike are the same where the packing of a cell tells them apart. -/
theorem packCells_inj (hw : 0 < w) (hf : ∀ x, f x < 2 ^ w) {cells cells' : Vector α 64}
    (hinj : ∀ j : Fin 64, f cells[j.val] = f cells'[j.val] → cells[j.val] = cells'[j.val])
    (h : packCells w (cells.toList.map f) = packCells w (cells'.toList.map f)) : cells = cells' := by
  have hbase : 1 < 2 ^ w := Nat.one_lt_two_pow hw.ne'
  have hdigits (v : Vector α 64) : ∀ x ∈ v.toList.map f, x < 2 ^ w := List.forall_mem_map.2 fun x _ => hf x
  rw [packCells_eq_ofDigits, packCells_eq_ofDigits] at h
  have hlist := Nat.ofDigits_inj_of_len_eq hbase (by simp) (hdigits cells) (hdigits cells') h
  ext j hj
  refine hinj ⟨j, hj⟩ ?_
  simpa [hj] using congrArg (·[j]?) hlist

end

/-! ## Every payload -/

theorem packed_lt (p : Payload) (h : p.InDomain) : p.packed < 2 ^ p.width := by
  cases p with
  | none => decide
  | pixel q => exact pixelPacked_lt q
  | therm v =>
    have hneg := v.neg.toNat_lt
    rw [packed_therm, Payload.width]
    omega
  | bytes2 b0 b1 =>
    rw [packed_bytes2, Payload.width]
    omega
  | addr2 lsb msb =>
    rw [packed_addr2, Payload.width]
    omega
  | status3 therm pixel interrupt =>
    have htherm := therm.toNat_lt
    have hpixel := pixel.toNat_lt
    have hinterrupt := interrupt.toNat_lt
    rw [packed_status3, Payload.width]
    omega
  | fps rate => rcases h with rfl | rfl <;> decide
  | matrix cells =>
    rw [Payload.width]
    exact packCells_lt (n := 768) rfl (by decide) pixelPacked_lt cells
  | table cells => exact packCells_lt rfl (by decide) Bool.toNat_lt cells
  | buserr a k =>
    have hk := kindNumber_lt k
    rw [packed_buserr, Payload.width]
    omega

theorem threeBits_inj {x y z x' y' z' : Bool}
    (h : 4 * x.toNat + 2 * y.toNat + z.toNat = 4 * x'.toNat + 2 * y'.toNat + z'.toNat) : x = x' ∧ y = y' ∧ z = z' := by
  revert x y z x' y' z'
  decide

theorem bool_eq_of_toNat_eq {b b' : Bool} (h : b.toNat = b'.toNat) : b = b' := by
  revert b b'
  decide

theorem packed_inj {p p' : Payload} (hkind : p.SameKind p') (h : p.InDomain) (h' : p'.InDomain) (heq : p.packed = p'.packed) :
    p = p' := by
  cases p with
  | none =>
    cases p' with
    | none => rfl
    | _ => exact hkind.elim
  | pixel q =>
    cases p' with
    | pixel q' => exact congrArg _ (pixelPacked_inj h h' heq)
    | _ => exact hkind.elim
  | therm v =>
    cases p' with
    | therm v' =>
      have hneg := v.neg.toNat_lt
      have hneg' := v'.neg.toNat_lt
      rw [packed_therm, packed_therm] at heq
      have hv : v = v' := (ThermValue.eq_iff_fields v v').2
        ⟨by rw [bool_eq_of_toNat_eq (b := v.neg) (b' := v'.neg) (by omega)], by omega, by omega⟩
      exact congrArg _ hv
    | _ => exact hkind.elim
  | bytes2 b0 b1 =>
    cases p' with
    | bytes2 b0' b1' =>
      rw [packed_bytes2, packed_bytes2] at heq
      rw [Payload.bytes2.injEq, ← BitVec.toNat_inj, ← BitVec.toNat_inj]
      omega
    | _ => exact hkind.elim
  | addr2 lsb msb =>
    cases p' with
    | addr2 lsb' msb' =>
      rw [packed_addr2, packed_addr2] at heq
      rw [Payload.addr2.injEq, ← BitVec.toNat_inj, ← BitVec.toNat_inj]
      omega
    | _ => exact hkind.elim
  | status3 therm pixel interrupt =>
    cases p' with
    | status3 therm' pixel' interrupt' =>
      rw [packed_status3, packed_status3] at heq
      obtain ⟨rfl, rfl, rfl⟩ := threeBits_inj heq
      rfl
    | _ => exact hkind.elim
  | fps rate =>
    cases p' with
    | fps rate' => exact congrArg _ heq
    | _ => exact hkind.elim
  | matrix cells =>
    cases p' with
    | matrix cells' =>
      exact congrArg _ (packCells_inj (by decide) pixelPacked_lt (fun j => pixelPacked_inj (h j) (h' j)) heq)
    | _ => exact hkind.elim
  | table cells =>
    cases p' with
    | table cells' => exact congrArg _ (packCells_inj (by decide) Bool.toNat_lt (fun _ => bool_eq_of_toNat_eq) heq)
    | _ => exact hkind.elim
  | buserr a k =>
    cases p' with
    | buserr a' k' =>
      rw [packed_buserr, packed_buserr] at heq
      have ha : a = a' := BitVec.eq_of_toNat_eq (by omega)
      have hk : k = k' := kindNumber_inj (by omega)
      rw [ha, hk]
    | _ => exact hkind.elim

/-- Settles O49: both facts, kind by kind. -/
theorem payloadPackingFitsAndIsFaithful : Obligations.PayloadPackingFitsAndIsFaithful :=
  ⟨packed_lt, fun _ _ => packed_inj⟩

/-! ## The reference device -/

section
variable {s : State} {rd : RefDevice}

theorem busAnswer_reference (h : s.oracle = .reference rd) (rq : BusRequest) : busAnswer s rq = rd.answer rq := by
  rw [busAnswer, h]

theorem RefDevice.answer_fault (h : (rd.served + 1) ∈ rd.failing) (rq : BusRequest) : rd.answer rq = .fault :=
  if_pos h

theorem RefDevice.answer_read (h : (rd.served + 1) ∉ rd.failing) (dev : DevAddr) (a : Byte) :
    rd.answer (.read dev a) = .ok (rd.bytes.read a.toNat) :=
  if_neg h

theorem RefDevice.answer_write (h : (rd.served + 1) ∉ rd.failing) (dev : DevAddr) (a v : Byte) :
    rd.answer (.write dev a v) = .ok v :=
  if_neg h

end

/-- Settles O50: RD's answer and what becomes of it, for an ordinal that is not listed and for one that is. -/
theorem referenceDeviceIsAByteArray : Obligations.ReferenceDeviceIsAByteArray := by
  intro s rd a v hrd hwf
  have hanswer := busAnswer_reference hrd
  simp only [readDone, writeDone, readFailed, writeFailed, answersRead, failsRead, failsWrite, hanswer, hrd]
  constructor
  · intro hserved
    rw [RefDevice.answer_read hserved, RefDevice.answer_write hserved]
    refine ⟨rfl, nofun, rfl, rd.bytes.write a.toNat v, rfl, Memory.write_wf a v hwf, fun x => ?_⟩
    rw [Memory.read_write v x.toNat hwf]
    exact if_congr BitVec.toNat_inj rfl rfl
  · intro hfails
    exact ⟨RefDevice.answer_fault hfails _, RefDevice.answer_fault hfails _, rfl, rfl⟩

end Sys2Proof.Machine
end

/-! # 30_encoding.md: the assembler (O51, O52)

A written line is its mnemonic and its operand texts, and a mnemonic is a command's. So what becomes of a line is what becomes of
its texts, filled up with the defaults of R100: they are rejected, or read as values in the ranges of the command's operand kinds.
Values in range make fields that pass the checks of R96, and the values written for a command make that command's own fields. -/
section
namespace Sys2Proof.Machine

/-! ## Values and fields -/

/-- The operand kind of 30_encoding.md R92 that an assembler kind stands for. -/
def AsmKind.operandKind : AsmKind → OperandKind
  | .byte => .byte
  | .bool => .bool
  | .idx => .idx
  | .modeCode => .code
  | .interruptCode => .code
  | .fpsCode => .code
  | .centi => .centi

/-- The column of the opcode map (R95) for the n-th operand: "-" where the command has none. -/
def slotKind (kinds : List AsmKind) (n : Nat) : OperandKind := (kinds.map AsmKind.operandKind).getD n .unused

/-- R95: the assembler's rows have the formats of the opcode map. -/
theorem formatOf_asmForms :
    ∀ f ∈ asmForms, formatOf f.opcode = some ⟨slotKind f.kinds 0, slotKind f.kinds 1, slotKind f.kinds 2⟩ := by
  decide

/-- A value in range makes a field that passes R92's check. -/
theorem fieldWellFormed_ofInt {k : AsmKind} {v : Int} (h : InOperandRange k v) :
    FieldWellFormed k.operandKind (BitVec.ofInt 16 v) := by
  cases k
  case byte | bool =>
    simp only [InOperandRange] at h
    simp only [AsmKind.operandKind, FieldWellFormed, BitVec.toNat_ofInt]
    omega
  all_goals trivial

theorem fieldWellFormed_slotField : ∀ {kinds : List AsmKind} {values : List Int} (_ : List.Forall₂ InOperandRange kinds values)
    (n : Nat), FieldWellFormed (slotKind kinds n) (slotField values n)
  | _, _, .nil, _ => rfl
  | _, _, .cons h _, 0 => fieldWellFormed_ofInt h
  | _, _, .cons _ h, n + 1 => fieldWellFormed_slotField h n

/-- The values that are written for a command are in their ranges. -/
theorem asmOperands_inRange (i : Instr) : ∀ p ∈ asmOperands i, InOperandRange p.1 p.2 := by
  have byte (b : Byte) : InOperandRange .byte b.toNat := by simp only [InOperandRange]; omega
  have bool (b : Bool) : InOperandRange .bool b.toNat := by cases b <;> simp [InOperandRange]
  have field (f : Field) : 0 ≤ (f.toNat : Int) ∧ (f.toNat : Int) < 2 ^ 16 := by omega
  have centi (f : Field) : InOperandRange .centi f.toInt := ⟨BitVec.le_toInt f, BitVec.toInt_lt⟩
  cases i <;> simp only [asmOperands, List.forall_mem_cons, List.not_mem_nil, false_implies, implies_true, and_true]
  case decodePixel | decodeThermistor => exact ⟨byte _, byte _⟩
  case encodeThreshold => exact centi _
  case clearFlags => exact ⟨bool _, bool _, bool _⟩
  case enableInterrupt => exact ⟨bool _, field _⟩
  case setInterruptThresholds => exact ⟨centi _, centi _, centi _⟩
  case setMode | setFpsMode => exact field _
  case pixelRegisterPair | getPixelTemperature => exact ⟨field _, field _⟩

/-- The values that are written for a command make its fields. -/
theorem command_eq_slotFields (i : Instr) : i.command = ⟨i.command.op, slotField ((asmOperands i).map Prod.snd) 0,
    slotField ((asmOperands i).map Prod.snd) 1, slotField ((asmOperands i).map Prod.snd) 2, 0#8⟩ := by
  have byte (b : Byte) : byteField b = BitVec.ofInt 16 b.toNat := by
    rw [BitVec.ofInt_natCast, BitVec.ofNat_toNat]
    rfl
  have bool (b : Bool) : boolField b = BitVec.ofInt 16 b.toNat := by cases b <;> rfl
  have field (f : Field) : BitVec.ofInt 16 f.toNat = f := by rw [BitVec.ofInt_natCast, BitVec.ofNat_toNat, BitVec.setWidth_eq]
  cases i <;> simp [Instr.command, asmOperands, slotField, byte, bool, field, BitVec.ofInt_toInt]

/-! ## Reading the operand texts -/

/-- Texts that write values in range are read as these values. -/
theorem operandValues_of_writes {codes : ModeCodes} {operands : List (AsmKind × Int)} {texts : List (List Char)}
    (h : List.Forall₂ (fun operand t => WritesOperand codes operand.1 t operand.2) operands texts)
    (hrange : ∀ p ∈ operands, InOperandRange p.1 p.2) :
    operandValues codes (operands.map Prod.fst) texts = .ok (operands.map Prod.snd) := by
  induction h with
  | nil => rfl
  | cons hwrites _ ih =>
    obtain ⟨hp, hrest⟩ := List.forall_mem_cons.1 hrange
    simp only [List.map_cons, operandValues, (operandValue_eq_ok_iff codes _ _ _).2 ⟨hwrites, hp⟩, ih hrest]

/-- Values that are read are in their ranges. -/
theorem operandValues_inRange {codes : ModeCodes} {kinds : List AsmKind} {texts : List (List Char)} {values : List Int}
    (h : operandValues codes kinds texts = .ok values) : List.Forall₂ InOperandRange kinds values := by
  obtain ⟨hvalues, hlen⟩ := (operandValues_eq_ok_iff codes kinds texts values).1 h
  rw [← List.map_fst_zip hlen.le, List.forall₂_map_left_iff]
  exact hvalues.imp fun kt n hn => ((operandValue_eq_ok_iff codes kt.1 kt.2 n).1 hn).2

/-- Each text that is read writes a value in the range of its kind. -/
theorem operandValues_writes {codes : ModeCodes} {kinds : List AsmKind} {texts : List (List Char)} {values : List Int}
    (h : operandValues codes kinds texts = .ok values) {k : AsmKind} {t : List Char} (hmem : (k, t) ∈ kinds.zip texts) :
    ∃ n, WritesOperand codes k t n ∧ InOperandRange k n := by
  obtain ⟨hvalues, -⟩ := (operandValues_eq_ok_iff codes kinds texts values).1 h
  obtain ⟨hl, hget⟩ := List.forall₂_iff_get.1 hvalues
  obtain ⟨j, hj, hkt⟩ := List.getElem_of_mem hmem
  have hn := hget j hj (hl ▸ hj)
  simp only [List.get_eq_getElem, hkt] at hn
  exact ⟨_, (operandValue_eq_ok_iff codes k t _).1 hn⟩

/-! ## Lines with a command's mnemonic -/

theorem mem_zip_append {α β : Type} {p : α × β} (more : List β) : ∀ {l : List α} {m : List β}, p ∈ l.zip m → p ∈ l.zip (m ++ more)
  | [], _, h => h
  | _ :: _, [], h => by simp at h
  | _ :: _, _ :: _, h => (List.mem_cons.1 h).elim (fun heq => List.mem_cons.2 (.inl heq))
      fun hrest => List.mem_cons.2 (.inr (mem_zip_append more hrest))

/-- The operands of a command are all written: no default is used. -/
theorem withDefaults_full {i : Instr} {ts : List (List Char)} (h : ts.length = (asmOperands i).length) :
    withDefaults i.command.op ts = ts := by
  cases i
  case clearFlags =>
    obtain ⟨a, rest, rfl⟩ := List.exists_cons_of_length_eq_add_one h
    rfl
  case enableInterrupt =>
    obtain ⟨a, b, rfl⟩ := List.length_eq_two.1 h
    rfl
  case setInterruptThresholds =>
    obtain ⟨a, b, c, rfl⟩ := List.length_eq_three.1 h
    rfl
  all_goals rfl

section
variable {codes : ModeCodes} {i : Instr} {texts : List (List Char)}

/-- A line is accepted when its texts, with the defaults, are read. -/
theorem assemble_accepts (hwords : ∀ t ∈ texts, OperandWord t) {values : List Int}
    (h : operandValues codes ((asmOperands i).map Prod.fst) (withDefaults i.command.op texts) = .ok values) :
    assemble codes (written (asmMnemonic i) texts) =
      .ok (Command.toWord ⟨i.command.op, slotField values 0, slotField values 1, slotField values 2, 0#8⟩) := by
  rw [assemble_written codes (asmMnemonic_word i) hwords]
  simp only [asmForms_find, h]

/-- And rejected when they are not. -/
theorem assemble_rejects (hwords : ∀ t ∈ texts, OperandWord t)
    (h : ∀ values, operandValues codes ((asmOperands i).map Prod.fst) (withDefaults i.command.op texts) ≠ .ok values) :
    ∃ e, assemble codes (written (asmMnemonic i) texts) = .error e := by
  rw [assemble_written codes (asmMnemonic_word i) hwords]
  simp only [asmForms_find]
  cases hread : operandValues codes ((asmOperands i).map Prod.fst) (withDefaults i.command.op texts) with
  | error e => exact ⟨e, rfl⟩
  | ok values => exact absurd hread (h values)

/-- Texts that the defaults make equal are one line to the assembler. -/
theorem assemble_congr_defaults {texts' : List (List Char)} (hwords : ∀ t ∈ texts, OperandWord t)
    (hwords' : ∀ t ∈ texts', OperandWord t) (h : withDefaults i.command.op texts = withDefaults i.command.op texts') :
    assemble codes (written (asmMnemonic i) texts) = assemble codes (written (asmMnemonic i) texts') := by
  rw [assemble_written codes (asmMnemonic_word i) hwords, assemble_written codes (asmMnemonic_word i) hwords']
  simp only [asmForms_find, h]

/-- A command written with all its operands. -/
theorem assemble_command
    (h : List.Forall₂ (fun operand t => WritesOperand codes operand.1 t operand.2) (asmOperands i) texts) :
    assemble codes (written (asmMnemonic i) texts) = .ok (encode i) := by
  have hwords : ∀ t ∈ texts, OperandWord t := by
    intro t ht
    obtain ⟨hl, hget⟩ := List.forall₂_iff_get.1 h
    obtain ⟨j, hj, rfl⟩ := List.getElem_of_mem ht
    exact (hget j (hl ▸ hj) hj).word
  have hread := operandValues_of_writes h (asmOperands_inRange i)
  rw [← withDefaults_full (i := i) h.length_eq.symm] at hread
  rw [assemble_accepts hwords hread, ← command_eq_slotFields, encode]

/-- An operand that has no value in its range. -/
theorem assemble_rejects_operand (hwords : ∀ t ∈ texts, OperandWord t) {operand : AsmKind × Int} {t : List Char}
    (hmem : (operand, t) ∈ (asmOperands i).zip texts)
    (h : ∀ n, WritesOperand codes operand.1 t n → ¬ InOperandRange operand.1 n) :
    ∃ e, assemble codes (written (asmMnemonic i) texts) = .error e := by
  refine assemble_rejects hwords fun values hread => ?_
  obtain ⟨more, hmore⟩ := withDefaults_append i.command.op (List.ne_nil_of_mem (List.of_mem_zip hmem).2)
  have hzip : (operand.1, t) ∈ ((asmOperands i).map Prod.fst).zip (withDefaults i.command.op texts) := by
    rw [hmore, List.zip_map_left]
    exact List.mem_map_of_mem (f := Prod.map Prod.fst id) (mem_zip_append more hmem)
  obtain ⟨n, hwrites, hrange⟩ := operandValues_writes hread hzip
  exact h n hwrites hrange

/-- A count of operands that is neither the command's own nor a pseudo-instruction's. -/
theorem assemble_rejects_count (hwords : ∀ t ∈ texts, OperandWord t) (h : ¬ TakesOperandCount i texts.length) :
    ∃ e, assemble codes (written (asmMnemonic i) texts) = .error e := by
  refine assemble_rejects hwords fun values hread => h (takesOperandCount_of_withDefaults ?_)
  have hlen := ((operandValues_eq_ok_iff _ _ _ _).1 hread).2
  rw [← hlen, List.length_map]

end

/-! ## Any line -/

/-- One command of each mnemonic, in the order of the opcode map (R95). -/
def oneOfEach : List Instr :=
  [ .decodePixel 0 0, .decodeThermistor 0 0, .encodeThreshold 0, .pixelRegisterPair 0 0, .setMode 0, .getStatus
  , .clearFlags false false false, .resetFlags, .resetFlagsAndSettings, .enableInterrupt false 0, .setInterruptThresholds 0 0 0
  , .setFpsMode 0, .getFps, .updateInterruptTable, .updatePixelTemperatureMatrix, .updateThermistorTemperature
  , .getPixelTemperatureMatrix, .getPixelTemperature 0 0, .getThermistorTemperature, .getInterruptTable ]

/-- The assembler's rows are the commands'. -/
theorem asmForms_eq : asmForms = oneOfEach.map fun i => ⟨asmMnemonic i, (asmOperands i).map Prod.fst, i.command.op⟩ := rfl

theorem asmForms_name {f : AsmForm} (h : f ∈ asmForms) : ∃ i, asmMnemonic i = f.name := by
  rw [asmForms_eq] at h
  obtain ⟨i, -, rfl⟩ := List.mem_map.1 h
  exact ⟨i, rfl⟩

theorem assemble_rejects_name (codes : ModeCodes) {name : List Char} {texts : List (List Char)} (hname : OperandWord name)
    (hwords : ∀ t ∈ texts, OperandWord t) (h : ∀ i, asmMnemonic i ≠ name) :
    ∃ e, assemble codes (written name texts) = .error e := by
  have hnone : asmForms.find? (fun f => decide (f.name = name)) = none := by
    refine List.find?_eq_none.2 fun f hf heq => ?_
    obtain ⟨i, hi⟩ := asmForms_name hf
    exact h i (hi.trans (of_decide_eq_true heq))
  rw [assemble_written codes hname hwords]
  simp only [hnone]
  exact ⟨_, rfl⟩

/-- An accepted line's word is made of one row of the assembler and values in its ranges. -/
theorem assemble_ok {codes : ModeCodes} {line : List Char} {w : Word} (h : assemble codes line = .ok w) :
    ∃ f ∈ asmForms, ∃ values, List.Forall₂ InOperandRange f.kinds values ∧
      w = Command.toWord ⟨f.opcode, slotField values 0, slotField values 1, slotField values 2, 0#8⟩ := by
  unfold assemble at h
  dsimp only at h
  split at h
  case h_1 => cases h
  case h_2 f hfind =>
    split at h
    case h_1 => cases h
    case h_2 values hread =>
      exact ⟨f, List.mem_of_find?_eq_some hfind, values, operandValues_inRange hread, (Except.ok.inj h).symm⟩

theorem decode_of_assemble {codes : ModeCodes} {line : List Char} {w : Word} (h : assemble codes line = .ok w) :
    ∃ i, decode w = .ok i := by
  obtain ⟨f, hf, values, hrange, rfl⟩ := assemble_ok h
  rw [decode_ok_iff, Command.ofWord_toWord, Command.wellFormed_iff]
  exact ⟨_, formatOf_asmForms f hf, rfl, fieldWellFormed_slotField hrange 0, fieldWellFormed_slotField hrange 1,
    fieldWellFormed_slotField hrange 2⟩

/-- Settles O51: the line is its mnemonic and texts, the texts are read within the ranges of their kinds or the line is rejected. -/
theorem assembledWordsAreLegal : Obligations.AssembledWordsAreLegal := by
  refine fun codes => ⟨fun _ _ => assemble_command, fun _ _ _ _ hwords hmem => assemble_rejects_operand hwords hmem,
    fun _ _ => assemble_rejects_count, fun _ _ => assemble_rejects_name codes, fun _ _ => decode_of_assemble⟩

/-! ## Pseudo-instructions -/

theorem operandWord_true : OperandWord "true".toList := by simp [OperandWord]

theorem operandWord_absolute : OperandWord "absolute".toList := by simp [OperandWord]

theorem operandWord_zero : OperandWord "0".toList := by simp [OperandWord]

theorem operandWords_cons {t : List Char} {ts : List (List Char)} (h : OperandWord t) (hs : ∀ u ∈ ts, OperandWord u) :
    ∀ u ∈ t :: ts, OperandWord u :=
  List.forall_mem_cons.2 ⟨h, hs⟩

theorem operandWords_two {t u : List Char} (ht : OperandWord t) (hu : OperandWord u) : ∀ v ∈ [t, u], OperandWord v :=
  operandWords_cons ht (List.forall_mem_singleton.2 hu)

theorem commaSeparated_snoc (u : List Char) : ∀ (t : List Char) (ts : List (List Char)),
    commaSeparated (t :: ts) ++ [',', ' '] ++ u = commaSeparated (t :: ts ++ [u])
  | t, [] => by simp [commaSeparated]
  | t, t' :: ts => by
    have ih := commaSeparated_snoc u t' ts
    simp only [List.cons_append, commaSeparated, List.append_assoc] at ih ⊢
    rw [ih]

/-- A line with one operand more. -/
theorem written_snoc (m t u : List Char) (ts : List (List Char)) :
    written m (t :: ts) ++ [',', ' '] ++ u = written m (t :: ts ++ [u]) := by
  have hsnoc := commaSeparated_snoc u t ts
  simp only [written, List.cons_append, List.append_assoc] at hsnoc ⊢
  rw [hsnoc]

theorem written_one (m t : List Char) : m ++ [' '] ++ t = written m [t] := List.append_assoc m [' '] t

section
variable (codes : ModeCodes)

theorem assemble_clearFlags : assemble codes "clear_flags".toList = assemble codes "clear_flags true, true, true".toList :=
  assemble_congr_defaults (i := .clearFlags true true true) (texts := []) (texts' := ["true".toList, "true".toList, "true".toList])
    nofun (operandWords_cons operandWord_true (operandWords_two operandWord_true operandWord_true)) rfl

theorem assemble_enableInterrupt :
    assemble codes "enable_interrupt".toList = assemble codes "enable_interrupt true, absolute".toList :=
  assemble_congr_defaults (i := .enableInterrupt true 1) (texts := []) (texts' := ["true".toList, "absolute".toList])
    nofun (operandWords_two operandWord_true operandWord_absolute) rfl

theorem assemble_enableInterrupt_mode {e : List Char} (he : OperandWord e) :
    assemble codes ("enable_interrupt ".toList ++ e) = assemble codes ("enable_interrupt ".toList ++ e ++ ", absolute".toList) := by
  have hname : "enable_interrupt ".toList = asmMnemonic (.enableInterrupt true 1) ++ [' '] := rfl
  have hdefault : ", absolute".toList = [',', ' '] ++ "absolute".toList := rfl
  rw [hname, hdefault, ← List.append_assoc, written_one, written_snoc]
  exact assemble_congr_defaults (List.forall_mem_singleton.2 he) (operandWords_two he operandWord_absolute) rfl

theorem assemble_setInterruptThresholds {lo hi : List Char} (hlo : OperandWord lo) (hhi : OperandWord hi) :
    assemble codes ("set_interrupt_thresholds ".toList ++ lo ++ ", ".toList ++ hi) =
      assemble codes ("set_interrupt_thresholds ".toList ++ lo ++ ", ".toList ++ hi ++ ", 0".toList) := by
  have hname : "set_interrupt_thresholds ".toList = asmMnemonic (.setInterruptThresholds 0 0 0) ++ [' '] := rfl
  have hcomma : ", ".toList = [',', ' '] := rfl
  have hdefault : ", 0".toList = [',', ' '] ++ "0".toList := rfl
  rw [hname, hcomma, hdefault, ← List.append_assoc, written_one, written_snoc, List.cons_append, written_snoc]
  exact assemble_congr_defaults (operandWords_two hlo hhi) (operandWords_cons hlo (operandWords_two hhi operandWord_zero)) rfl

end

/-- Settles O52: a line and its expansion are one to the assembler, and the full one is its command written out. -/
theorem pseudoInstructionsExpand : Obligations.PseudoInstructionsExpand := by
  intro codes
  have htrue : WritesOperand codes .bool "true".toList 1 := .inr (by simp [operandSymbols])
  have habsolute : WritesOperand codes .interruptCode "absolute".toList 1 := .inr (by simp [operandSymbols])
  have hclear : assemble codes "clear_flags true, true, true".toList = .ok (encode (.clearFlags true true true)) :=
    assemble_command (i := .clearFlags true true true) (texts := ["true".toList, "true".toList, "true".toList])
      (.cons htrue (.cons htrue (.cons htrue .nil)))
  have henable : assemble codes "enable_interrupt true, absolute".toList = .ok (encode (.enableInterrupt true 1)) :=
    assemble_command (i := .enableInterrupt true 1) (texts := ["true".toList, "absolute".toList])
      (.cons htrue (.cons habsolute .nil))
  exact ⟨assemble_clearFlags codes, (assemble_clearFlags codes).trans hclear, assemble_enableInterrupt codes,
    (assemble_enableInterrupt codes).trans henable, fun _ hne he => assemble_enableInterrupt_mode codes ⟨hne, he⟩,
    fun _ _ hlo hhi hwlo hwhi => assemble_setInterruptThresholds codes ⟨hlo, hwlo⟩ ⟨hhi, hwhi⟩⟩

end Sys2Proof.Machine
end
